-- ==== Sys2Proof/Word.lean ====
section
/-! DEFINITION. The widths of the machine (spec/00_scope.md R6, R7): every value is an unsigned bit vector of a
stated width, and a register or key number is an index. -/

namespace Sys2Proof

/-- 8 bits: a general register, a memory cell, a timer, the immediate `kk` (00_scope.md R6). -/
abbrev Byte := BitVec 8

/-- 16 bits: `I`, `pc`, a stack entry, an instruction word (00_scope.md R6, 30_encoding.md R50). -/
abbrev Word := BitVec 16

/-- 12 bits: the immediate `nnn` (30_encoding.md R52). -/
abbrev Imm12 := BitVec 12

/-- 4 bits: one hexadecimal digit of an instruction word (30_encoding.md R52). -/
abbrev Nibble := BitVec 4

/-- The number of a general register, V0 to VF (10_state.md R11). -/
abbrev RegIx := Fin 16

/-- A logical key index, 0 to 15 (10_state.md R20). -/
abbrev KeyIx := Fin 16

/-- The sprite height `n` of DRW, 0 to 15 (30_encoding.md R61). -/
abbrev RowCount := Fin 16

/-- `VF`, the only flag register (10_state.md R12). -/
abbrev flagReg : RegIx := 15

end Sys2Proof
end

