-- ==== Sys2Proof/Syntax.lean ====
section
/-! DEFINITION. The instructions: one constructor per row of spec/opcode_table.json, in the table's order
(spec/30_encoding.md R56, R63). -/

namespace Sys2Proof

/-- The 34 instructions of 30_encoding.md R56 and the unmapped no-op of R59. Register numbers, immediates and the
sprite height have exactly the ranges of their fields (R52); ignored bits (R58) are not part of an instruction. -/
inductive Instr where
  /-- `CLS`, 43_display.md R110. -/
  | cls
  /-- `RET`, 40_control_flow.md R70. -/
  | ret
  /-- `JP nnn`, 40_control_flow.md R71. -/
  | jp (nnn : Imm12)
  /-- `CALL nnn`, 40_control_flow.md R72. -/
  | call (nnn : Imm12)
  /-- `SE Vx,kk`, 40_control_flow.md R73. -/
  | seImm (x : RegIx) (kk : Byte)
  /-- `SNE Vx,kk`, 40_control_flow.md R74. -/
  | sneImm (x : RegIx) (kk : Byte)
  /-- `SE Vx,Vy`, 40_control_flow.md R75. -/
  | seReg (x y : RegIx)
  /-- `LD Vx,kk`, 41_arith_logic.md R81. -/
  | ldImm (x : RegIx) (kk : Byte)
  /-- `ADD Vx,kk`, 41_arith_logic.md R82. -/
  | addImm (x : RegIx) (kk : Byte)
  /-- `LD Vx,Vy`, 41_arith_logic.md R83. -/
  | ldReg (x y : RegIx)
  /-- `OR Vx,Vy`, 41_arith_logic.md R84. -/
  | orReg (x y : RegIx)
  /-- `AND Vx,Vy`, 41_arith_logic.md R85. -/
  | andReg (x y : RegIx)
  /-- `XOR Vx,Vy`, 41_arith_logic.md R86. -/
  | xorReg (x y : RegIx)
  /-- `ADD Vx,Vy`, 41_arith_logic.md R87. -/
  | addReg (x y : RegIx)
  /-- `SUB Vx,Vy`, 41_arith_logic.md R88. -/
  | subReg (x y : RegIx)
  /-- `SHR Vx`, 41_arith_logic.md R89. -/
  | shr (x : RegIx)
  /-- `SUBN Vx,Vy`, 41_arith_logic.md R90. -/
  | subnReg (x y : RegIx)
  /-- `SHL Vx`, 41_arith_logic.md R91. -/
  | shl (x : RegIx)
  /-- `SNE Vx,Vy`, 40_control_flow.md R76. -/
  | sneReg (x y : RegIx)
  /-- `LD I,nnn`, 42_index_memory.md R100. -/
  | ldI (nnn : Imm12)
  /-- `JP V0,nnn`, 40_control_flow.md R78. -/
  | jpV0 (nnn : Imm12)
  /-- `RND Vx,kk`, 41_arith_logic.md R93. -/
  | rnd (x : RegIx) (kk : Byte)
  /-- `DRW Vx,Vy,n`, 43_display.md R111. -/
  | drw (x y : RegIx) (n : RowCount)
  /-- `SKP Vx`, 44_timer_keypad.md R120. -/
  | skp (x : RegIx)
  /-- `SKNP Vx`, 44_timer_keypad.md R121. -/
  | sknp (x : RegIx)
  /-- `LD Vx,DT`, 44_timer_keypad.md R122. -/
  | ldVxDt (x : RegIx)
  /-- `LD Vx,K`, 44_timer_keypad.md R125. -/
  | ldVxK (x : RegIx)
  /-- `LD DT,Vx`, 44_timer_keypad.md R123. -/
  | ldDtVx (x : RegIx)
  /-- `LD ST,Vx`, 44_timer_keypad.md R124. -/
  | ldStVx (x : RegIx)
  /-- `ADD I,Vx`, 42_index_memory.md R101. -/
  | addI (x : RegIx)
  /-- `LD F,Vx`, 42_index_memory.md R102. -/
  | ldF (x : RegIx)
  /-- `LD B,Vx`, 42_index_memory.md R103. -/
  | ldB (x : RegIx)
  /-- `LD [I],Vx`, 42_index_memory.md R104. -/
  | storeRegs (x : RegIx)
  /-- `LD Vx,[I]`, 42_index_memory.md R105. -/
  | loadRegs (x : RegIx)
  /-- An unmapped opcode: any word `op` that no row of the opcode map selects, 40_control_flow.md R79. -/
  | unmapped (op : Word)
  deriving DecidableEq, Repr

/-- The row of the opcode map of 30_encoding.md R56 an instruction belongs to; 35 is the catch-all row of
spec/opcode_table.json for unmapped words. -/
def Instr.row : Instr → Nat
  | .cls => 1
  | .ret => 2
  | .jp _ => 3
  | .call _ => 4
  | .seImm _ _ => 5
  | .sneImm _ _ => 6
  | .seReg _ _ => 7
  | .ldImm _ _ => 8
  | .addImm _ _ => 9
  | .ldReg _ _ => 10
  | .orReg _ _ => 11
  | .andReg _ _ => 12
  | .xorReg _ _ => 13
  | .addReg _ _ => 14
  | .subReg _ _ => 15
  | .shr _ => 16
  | .subnReg _ _ => 17
  | .shl _ => 18
  | .sneReg _ _ => 19
  | .ldI _ => 20
  | .jpV0 _ => 21
  | .rnd _ _ => 22
  | .drw _ _ _ => 23
  | .skp _ => 24
  | .sknp _ => 25
  | .ldVxDt _ => 26
  | .ldVxK _ => 27
  | .ldDtVx _ => 28
  | .ldStVx _ => 29
  | .addI _ => 30
  | .ldF _ => 31
  | .ldB _ => 32
  | .storeRegs _ => 33
  | .loadRegs _ => 34
  | .unmapped _ => 35

end Sys2Proof
end

