-- ==== Sys2Proof/WellFormed.lean ====
section
/-! DEFINITION. Which instructions are well formed. Every operand's range is in its type, so the one thing left to
check is that an unmapped opcode carries a word that is unmapped, by the table of spec/30_encoding.md R59. -/

namespace Sys2Proof

/-- The selector bytes `kk` that type 0xF maps (30_encoding.md R59, last row). -/
def mappedTypeF : List Word := [0x07, 0x0A, 0x15, 0x18, 0x1E, 0x29, 0x33, 0x55, 0x65]

/-- The selector nibbles `n` that type 0x8 leaves unmapped (30_encoding.md R59, second row). -/
def unmappedType8 : List Word := [0x8, 0x9, 0xA, 0xB, 0xC, 0xD, 0xF]

/-- The unmapped words, row by row of the table of 30_encoding.md R59. -/
def isUnmapped (op : Word) : Bool :=
  (op &&& 0xF000 == 0x0000 && op != 0x00E0 && op != 0x00EE)
    || (op &&& 0xF000 == 0x8000 && unmappedType8.contains (op &&& 0x000F))
    || (op &&& 0xF000 == 0xE000 && op &&& 0x00FF != 0x9E && op &&& 0x00FF != 0xA1)
    || (op &&& 0xF000 == 0xF000 && !mappedTypeF.contains (op &&& 0x00FF))

/-- The well-formed instructions: the 34 instructions with any operands, and the no-op of an unmapped word. -/
def Instr.wf : Instr → Bool
  | .unmapped op => isUnmapped op
  | _ => true

end Sys2Proof
end

