-- ==== Sys2Proof/Decode.lean ====
section
/-! DEFINITION. Decoding (spec/30_encoding.md R51, R52, R55, R56, R58, R59) and the encoder beside it. Decoding a word is
total: a word no row selects decodes to the unmapped no-op. Only a byte sequence too short to hold a word is
rejected, by name. -/

namespace Sys2Proof

/-- Bits 15:12 (30_encoding.md R52). -/
def fieldType (op : Word) : Nibble := op.extractLsb' 12 4

/-- Bits 11:8, a register number (30_encoding.md R52). -/
def fieldX (op : Word) : RegIx := (op.extractLsb' 8 4).toFin

/-- Bits 7:4, a register number (30_encoding.md R52). -/
def fieldY (op : Word) : RegIx := (op.extractLsb' 4 4).toFin

/-- Bits 3:0 (30_encoding.md R52). -/
def fieldN (op : Word) : RowCount := (op.extractLsb' 0 4).toFin

/-- Bits 7:0 (30_encoding.md R52). -/
def fieldKk (op : Word) : Byte := op.extractLsb' 0 8

/-- Bits 11:0 (30_encoding.md R52). -/
def fieldNnn (op : Word) : Imm12 := op.extractLsb' 0 12

/-- Type 0x0 selects on the whole of `nnn` (30_encoding.md R55). -/
def decodeType0 (op : Word) : Instr :=
  if fieldNnn op = 0x0E0 then .cls
  else if fieldNnn op = 0x0EE then .ret
  else .unmapped op

/-- Type 0x8 selects on `n` (30_encoding.md R55, R56 rows 10 to 18). -/
def decodeType8 (op : Word) : Instr :=
  match (fieldN op).val with
  | 0x0 => .ldReg (fieldX op) (fieldY op)
  | 0x1 => .orReg (fieldX op) (fieldY op)
  | 0x2 => .andReg (fieldX op) (fieldY op)
  | 0x3 => .xorReg (fieldX op) (fieldY op)
  | 0x4 => .addReg (fieldX op) (fieldY op)
  | 0x5 => .subReg (fieldX op) (fieldY op)
  | 0x6 => .shr (fieldX op)
  | 0x7 => .subnReg (fieldX op) (fieldY op)
  | 0xE => .shl (fieldX op)
  | _ => .unmapped op

/-- Type 0xE selects on `kk` (30_encoding.md R55, R56 rows 24 and 25). -/
def decodeTypeE (op : Word) : Instr :=
  if fieldKk op = 0x9E then .skp (fieldX op)
  else if fieldKk op = 0xA1 then .sknp (fieldX op)
  else .unmapped op

/-- Type 0xF selects on `kk` (30_encoding.md R55, R56 rows 26 to 34). -/
def decodeTypeF (op : Word) : Instr :=
  if fieldKk op = 0x07 then .ldVxDt (fieldX op)
  else if fieldKk op = 0x0A then .ldVxK (fieldX op)
  else if fieldKk op = 0x15 then .ldDtVx (fieldX op)
  else if fieldKk op = 0x18 then .ldStVx (fieldX op)
  else if fieldKk op = 0x1E then .addI (fieldX op)
  else if fieldKk op = 0x29 then .ldF (fieldX op)
  else if fieldKk op = 0x33 then .ldB (fieldX op)
  else if fieldKk op = 0x55 then .storeRegs (fieldX op)
  else if fieldKk op = 0x65 then .loadRegs (fieldX op)
  else .unmapped op

/-- The instruction of a word: the first-level dispatch on the type field (30_encoding.md R55). The `n` of types 0x5
and 0x9 takes no part (R58). -/
def decode (op : Word) : Instr :=
  match (fieldType op).toNat with
  | 0x0 => decodeType0 op
  | 0x1 => .jp (fieldNnn op)
  | 0x2 => .call (fieldNnn op)
  | 0x3 => .seImm (fieldX op) (fieldKk op)
  | 0x4 => .sneImm (fieldX op) (fieldKk op)
  | 0x5 => .seReg (fieldX op) (fieldY op)
  | 0x6 => .ldImm (fieldX op) (fieldKk op)
  | 0x7 => .addImm (fieldX op) (fieldKk op)
  | 0x8 => decodeType8 op
  | 0x9 => .sneReg (fieldX op) (fieldY op)
  | 0xA => .ldI (fieldNnn op)
  | 0xB => .jpV0 (fieldNnn op)
  | 0xC => .rnd (fieldX op) (fieldKk op)
  | 0xD => .drw (fieldX op) (fieldY op) (fieldN op)
  | 0xE => decodeTypeE op
  | _ => decodeTypeF op

/-- The word of two consecutive bytes, the first the high one (20_memory.md R33). -/
def wordOfBytes (byte0 byte1 : Byte) : Word := byte0 ++ byte1

/-- The high byte of a word, the one at the lower address (20_memory.md R33). -/
def highByte (w : Word) : Byte := w.extractLsb' 8 8

/-- The low byte of a word, the one at the higher address (20_memory.md R33). -/
def lowByte (w : Word) : Byte := w.extractLsb' 0 8

/-- Why a byte sequence holds no instruction. -/
inductive DecodeError where
  /-- Fewer than the 2 bytes every instruction has (30_encoding.md R50). -/
  | truncated
  deriving DecidableEq, Repr

/-- The instruction at the head of a byte sequence, and the bytes after it (30_encoding.md R50, R51). -/
def decodeBytes : List Byte → Except DecodeError (Instr × List Byte)
  | byte0 :: byte1 :: rest => .ok (decode (wordOfBytes byte0 byte1), rest)
  | _ => .error .truncated

/-- A word of four hexadecimal digits, type first (30_encoding.md R52, formats XY and XYN of R54). -/
def wordXYN (type x y n : Nibble) : Word := type ++ x ++ y ++ n

/-- A word of format XK, or of format X with a selector for `kk` (30_encoding.md R54). -/
def wordXK (type x : Nibble) (kk : Byte) : Word := type ++ x ++ kk

/-- A word of format A, or of format Z with a fixed `nnn` (30_encoding.md R54). -/
def wordA (type : Nibble) (nnn : Imm12) : Word := type ++ nnn

/-- A register number or row count as a field of 4 bits. -/
def nibbleOf (r : Fin 16) : Nibble := BitVec.ofFin r

/-- The word of an instruction, from the patterns of 30_encoding.md R56; ignored nibbles are 0 (R58). -/
def encode : Instr → Word
  | .cls => wordA 0x0 0x0E0
  | .ret => wordA 0x0 0x0EE
  | .jp nnn => wordA 0x1 nnn
  | .call nnn => wordA 0x2 nnn
  | .seImm x kk => wordXK 0x3 (nibbleOf x) kk
  | .sneImm x kk => wordXK 0x4 (nibbleOf x) kk
  | .seReg x y => wordXYN 0x5 (nibbleOf x) (nibbleOf y) 0x0
  | .ldImm x kk => wordXK 0x6 (nibbleOf x) kk
  | .addImm x kk => wordXK 0x7 (nibbleOf x) kk
  | .ldReg x y => wordXYN 0x8 (nibbleOf x) (nibbleOf y) 0x0
  | .orReg x y => wordXYN 0x8 (nibbleOf x) (nibbleOf y) 0x1
  | .andReg x y => wordXYN 0x8 (nibbleOf x) (nibbleOf y) 0x2
  | .xorReg x y => wordXYN 0x8 (nibbleOf x) (nibbleOf y) 0x3
  | .addReg x y => wordXYN 0x8 (nibbleOf x) (nibbleOf y) 0x4
  | .subReg x y => wordXYN 0x8 (nibbleOf x) (nibbleOf y) 0x5
  | .shr x => wordXYN 0x8 (nibbleOf x) 0x0 0x6
  | .subnReg x y => wordXYN 0x8 (nibbleOf x) (nibbleOf y) 0x7
  | .shl x => wordXYN 0x8 (nibbleOf x) 0x0 0xE
  | .sneReg x y => wordXYN 0x9 (nibbleOf x) (nibbleOf y) 0x0
  | .ldI nnn => wordA 0xA nnn
  | .jpV0 nnn => wordA 0xB nnn
  | .rnd x kk => wordXK 0xC (nibbleOf x) kk
  | .drw x y n => wordXYN 0xD (nibbleOf x) (nibbleOf y) (nibbleOf n)
  | .skp x => wordXK 0xE (nibbleOf x) 0x9E
  | .sknp x => wordXK 0xE (nibbleOf x) 0xA1
  | .ldVxDt x => wordXK 0xF (nibbleOf x) 0x07
  | .ldVxK x => wordXK 0xF (nibbleOf x) 0x0A
  | .ldDtVx x => wordXK 0xF (nibbleOf x) 0x15
  | .ldStVx x => wordXK 0xF (nibbleOf x) 0x18
  | .addI x => wordXK 0xF (nibbleOf x) 0x1E
  | .ldF x => wordXK 0xF (nibbleOf x) 0x29
  | .ldB x => wordXK 0xF (nibbleOf x) 0x33
  | .storeRegs x => wordXK 0xF (nibbleOf x) 0x55
  | .loadRegs x => wordXK 0xF (nibbleOf x) 0x65
  | .unmapped op => op

/-- The two bytes of an instruction in memory order (20_memory.md R33). -/
def encodeBytes (i : Instr) : List Byte := [highByte (encode i), lowByte (encode i)]

/-- Mask and match of rows 1 to 34 of the opcode map, in its order (30_encoding.md R56). -/
def opcodeMap : List (Word × Word) :=
  [(0xFFFF, 0x00E0), (0xFFFF, 0x00EE), (0xF000, 0x1000), (0xF000, 0x2000), (0xF000, 0x3000), (0xF000, 0x4000)]
    ++ [(0xF000, 0x5000), (0xF000, 0x6000), (0xF000, 0x7000), (0xF00F, 0x8000), (0xF00F, 0x8001), (0xF00F, 0x8002)]
    ++ [(0xF00F, 0x8003), (0xF00F, 0x8004), (0xF00F, 0x8005), (0xF00F, 0x8006), (0xF00F, 0x8007), (0xF00F, 0x800E)]
    ++ [(0xF000, 0x9000), (0xF000, 0xA000), (0xF000, 0xB000), (0xF000, 0xC000), (0xF000, 0xD000)]
    ++ [(0xF0FF, 0xE09E), (0xF0FF, 0xE0A1), (0xF0FF, 0xF007), (0xF0FF, 0xF00A), (0xF0FF, 0xF015), (0xF0FF, 0xF018)]
    ++ [(0xF0FF, 0xF01E), (0xF0FF, 0xF029), (0xF0FF, 0xF033), (0xF0FF, 0xF055), (0xF0FF, 0xF065)]

/-- The bytes in memory of the instruction whose first `nbits` bits, numbered as spec/opcode_table.json numbers them,
are `w`: one word of 16 bits, its bits above `nbits` zero, high byte first (20_memory.md R33). -/
def tableBytes (nbits w : Nat) : List Byte :=
  [highByte (BitVec.ofNat 16 (w % 2 ^ nbits)), lowByte (BitVec.ofNat 16 (w % 2 ^ nbits))]

/-- What the decoder reads from the instruction whose table bits are `w`. -/
def decodeTableWord (nbits w : Nat) : Option Instr :=
  match decodeBytes (tableBytes nbits w) with
  | .ok (i, _) => some i
  | .error _ => none

end Sys2Proof
end

