-- ==== Sys2Proof/Config.lean ====
section
/-! DEFINITION. What an implementation fixes (spec/00_scope.md R6) and the values the spec leaves open: the random
byte of RND and the raw-key map. The font table, the third open parameter, has a default and is an argument of the
model (Sys2Proof/Machine/Font.lean). -/

namespace Sys2Proof

/-- `MEM_SIZE` (00_scope.md R6): addresses 0x000 to 0xFFF. -/
def Config.memSize : Nat := 4096

/-- `LOAD_OFFSET` (00_scope.md R6): where a program image is loaded and where execution starts. -/
def Config.loadOffset : Nat := 0x200

/-- FREE VALUE (log entry 1): the byte the n-th executed RND draws (41_arith_logic.md R93, 93 U1). It has no body:
a claim holds for every sequence of draws. -/
opaque Config.randomByte : Nat → Byte

/-- The 16 entries of a key map, one per key: the raw input code of each key, no code under two keys
(44_timer_keypad.md R128). The defaults of the fields only show that such a table exists. -/
structure KeyTable where
  /-- The raw code of a key. -/
  code : KeyIx → Nat := Fin.val
  /-- No two keys have one code. -/
  distinct : ∀ j k, code j = code k → j = k := by decide
  deriving Inhabited

/-- FREE VALUE (log entry 3): the entries of `KEYMAP` (44_timer_keypad.md R128, 92 D18). It has no body: the spec gives
no entry of the table, so a claim holds for every table. -/
opaque Config.keyTable : KeyTable

/-- The raw code that `KEYMAP` sends to key `k`. -/
def Config.keyCode (k : KeyIx) : Nat := Config.keyTable.code k

end Sys2Proof
end

