-- ==== Sys2Proof/Machine/Font.lean ====
section
/-! DEFINITION. The font table, an OPEN parameter of an instance with a default (spec/00_scope.md R6, spec/10_state.md R22,
92 D15), and the contents memory has after `Reset` with it. -/

namespace Sys2Proof.Machine

/-- `FONT`: any table of bytes with `FONT_SIZE <= LOAD_OFFSET` (10_state.md R22). It is chosen when an instance is built;
a State carries its instance's table (log entry 2). -/
structure Font where
  /-- The bytes `Reset` places at addresses 0 to `FONT_SIZE`-1; their number is `FONT_SIZE`. -/
  bytes : List Byte
  /-- The font and a loaded image do not overlap. -/
  fits : bytes.length ≤ Config.loadOffset
  deriving DecidableEq, Repr

/-- Glyphs 0 to 7 of the default font (10_state.md R22). -/
def fontLow : List Byte :=
  [0xF0, 0x90, 0x90, 0x90, 0xF0] ++ [0x20, 0x60, 0x20, 0x20, 0x70] ++ [0xF0, 0x10, 0xF0, 0x80, 0xF0]
    ++ [0xF0, 0x10, 0xF0, 0x10, 0xF0] ++ [0x90, 0x90, 0xF0, 0x10, 0x10] ++ [0xF0, 0x80, 0xF0, 0x10, 0xF0]
    ++ [0xF0, 0x80, 0xF0, 0x90, 0xF0] ++ [0xF0, 0x10, 0x20, 0x40, 0x40]

/-- Glyphs 8 to F of the default font (10_state.md R22). -/
def fontHigh : List Byte :=
  [0xF0, 0x90, 0xF0, 0x90, 0xF0] ++ [0xF0, 0x90, 0xF0, 0x10, 0xF0] ++ [0xF0, 0x90, 0xF0, 0x90, 0x90]
    ++ [0xE0, 0x90, 0xE0, 0x90, 0xE0] ++ [0xF0, 0x80, 0x80, 0x80, 0xF0] ++ [0xE0, 0x90, 0x90, 0x90, 0xE0]
    ++ [0xF0, 0x80, 0xF0, 0x80, 0xF0] ++ [0xF0, 0x80, 0xF0, 0x80, 0x80]

/-- The default of `FONT`: 16 glyphs, 80 bytes (10_state.md R22). A claim that rests on one of its bytes names it. -/
def defaultFont : Font := { bytes := fontLow ++ fontHigh, fits := by decide }

/-- What cell `a` holds after `Reset`, and so what an unlisted cell reads as: `FONT[a]`, and 0x00 above it (10_state.md R23). -/
def resetByte (f : Font) (a : Nat) : Byte := f.bytes.getD a 0

end Sys2Proof.Machine
end

