-- ==== Sys2Proof/Machine/State.lean ====
section
/-! DEFINITION. The architectural state of the core (spec/10_state.md R10), its reset value (R23) and the two closed
lists of reasons a step can stop. -/

namespace Sys2Proof.Machine

/-- The causes of a fault (60_exceptions.md R132), which are also what a Step on a faulted machine answers (R134).
`step` answers `.fault c` exactly when `status` is `Faulted(c)`: the machine has stopped, which the spec itself says, so
the stop is exact (neither a safe nor an unsafe difference). -/
inductive Fault where
  /-- Code 1, `StackOverflowError`: recorded by CALL at `sp = 16` (60_exceptions.md R132); answered by every later
  `step`. Safe: the spec stops here too. -/
  | stackOverflow
  /-- Code 2, `StackUnderflowError`: recorded by RET at `sp = 0` (60_exceptions.md R132); answered by every later
  `step`. Safe: the spec stops here too. -/
  | stackUnderflow
  /-- Code 3, `OutOfBoundsMemoryAccess`: reserved, recorded by nothing (60_exceptions.md R135). Safe: unreachable. -/
  | outOfBoundsMemoryAccess
  deriving DecidableEq, Repr

/-- Why the model gives no meaning. -/
inductive Refusal where
  /-- An instruction without a meaning in `exec`. Raised by no arm of this model. Safe. -/
  | notModelled (mnemonic : String)
  /-- Any operation but `Reset` on a core that has never been reset (70_reset_and_hazards.md R151, 93 U7). Raised by
  `deviceOperate`, never by `step` or a meaning. Safe: the spec gives those operations no meaning. -/
  | neverReset
  deriving DecidableEq, Repr

/-- The fault status register (10_state.md R21). -/
inductive Status where
  /-- `Running`, encoded 0. -/
  | running
  /-- `Faulted(cause)`, encoded 1 to 3. -/
  | faulted (cause : Fault)
  deriving DecidableEq, Repr

/-- The encoding of `status` in its 2 bits (10_state.md R21). -/
def Status.code : Status → BitVec 2
  | .running => 0
  | .faulted .stackOverflow => 1
  | .faulted .stackUnderflow => 2
  | .faulted .outOfBoundsMemoryAccess => 3

/-- Main memory: the cells that differ from the reset contents, by rising address (10_state.md R18). -/
abbrev Memory := List Host.Cell

/-- The complete architectural state (10_state.md R10), the instance's font table, and the model's own
counter of random draws. -/
structure State where
  /-- General registers V0 to VF (10_state.md R11). -/
  v : Vector Byte 16
  /-- Index register; all 16 bits are stored (10_state.md R13). -/
  i : Word
  /-- Program counter; all 16 bits are stored (10_state.md R14). -/
  pc : Word
  /-- Stack pointer, 0 to 16 (10_state.md R15, 90_conflicts.md C2). -/
  sp : Fin 17
  /-- Call-return addresses (10_state.md R16). -/
  stack : Vector Word 16
  /-- Delay timer (10_state.md R17). -/
  dt : Byte
  /-- Sound timer (10_state.md R17). -/
  st : Byte
  /-- Main memory (10_state.md R18). -/
  mem : Memory
  /-- Display: 32 rows of 64 one-bit cells; `Pix(x, y)` is bit `x` of row `y` (10_state.md R19). -/
  pix : Vector (BitVec 64) 32
  /-- Keypad: `true` is pressed (10_state.md R20). -/
  keys : Vector Bool 16
  /-- Fault status (10_state.md R21). -/
  status : Status
  /-- THE INSTANCE'S PARAMETER `FONT`, not state of the spec: every operation leaves it (00_scope.md R6, log entry 2). -/
  font : Font
  /-- THE MODEL'S OWN: how many RND have executed, the argument of the free value `Config.randomByte` (log entry 1). -/
  draws : Nat
  deriving DecidableEq, Repr

/-- The state after `Reset` of an instance built with the font `f` (10_state.md R23). Memory lists nothing: every cell holds its reset contents (R22). The
counter `draws` is no state of the spec; its 0 is a DESIGN CHOICE (log entry 1). -/
def State.resetWith (f : Font) : State where
  v := Vector.replicate 16 0
  i := 0
  pc := 0x0200
  sp := 0
  stack := Vector.replicate 16 0
  dt := 0
  st := 0
  mem := []
  pix := Vector.replicate 32 0
  keys := Vector.replicate 16 false
  status := .running
  font := f
  draws := 0

/-- The state after `Reset` of the instance with the default font (10_state.md R22, R23; log entry 2). -/
def State.reset : State := State.resetWith defaultFont

end Sys2Proof.Machine
end

