-- ==== Sys2Proof/Machine/Memory.lean ====
section
/-! DEFINITION. Main memory (spec/10_state.md R18, R22; spec/20_memory.md R30 to R32): one cell read and written.
The font says what an unlisted cell holds (Sys2Proof/Machine/Font.lean). Addresses here are cell numbers; masking is in
Sys2Proof/Machine/Ops.lean. -/

namespace Sys2Proof.Machine

/-- The byte of cell `a`; a listing by rising address is read no further than `a`. -/
def Memory.read (f : Font) : Memory → Nat → Byte
  | [], a => resetByte f a
  | (b, w) :: m, a => if a = b then w else if a < b then resetByte f a else Memory.read f m a

/-- A cell in front of a listing, unless it holds its reset contents. -/
def Memory.consCell (f : Font) (a : Nat) (w : Byte) (m : Memory) : Memory :=
  if w = resetByte f a then m else (a, w) :: m

/-- Cell `a` set to `w`, in canonical form. -/
def Memory.write (f : Font) : Memory → Nat → Byte → Memory
  | [], a, w => Memory.consCell f a w []
  | (b, u) :: m, a, w =>
    if a = b then Memory.consCell f a w m
    else if a < b then Memory.consCell f a w ((b, u) :: m)
    else (b, u) :: Memory.write f m a w

/-- The canonical form from address `lo` on: addresses rise, stay below `MEM_SIZE`, and no listed cell holds its reset
contents. -/
def Memory.wfFrom (f : Font) : Nat → Memory → Bool
  | _, [] => true
  | lo, (b, w) :: m => decide (lo ≤ b) && decide (b < Config.memSize) && w != resetByte f b && Memory.wfFrom f (b + 1) m

/-- The canonical form of memory: equal memories of one instance are equal lists. -/
def Memory.wf (f : Font) (m : Memory) : Bool := Memory.wfFrom f 0 m

end Sys2Proof.Machine
end

