-- ==== Sys2Proof/Machine/Ops.lean ====
section
/-! DEFINITION. The named operations over registers, memory, the stack, the display and the keys, and taking a fault
(spec/00_scope.md R8, spec/20_memory.md, spec/60_exceptions.md R133). There is no return from a fault (R134). -/

namespace Sys2Proof.Machine

/-- `V[r]` (00_scope.md R8). -/
def State.getV (s : State) (r : RegIx) : Byte := s.v[r]

/-- `V[r] <- b` (00_scope.md R8). -/
def State.setV (s : State) (r : RegIx) (b : Byte) : State := { s with v := s.v.set r b }

/-- `I <- w`. -/
def State.setI (s : State) (w : Word) : State := { s with i := w }

/-- `pc <- w`. -/
def State.setPc (s : State) (w : Word) : State := { s with pc := w }

/-- `DT <- b`. -/
def State.setDt (s : State) (b : Byte) : State := { s with dt := b }

/-- `ST <- b`. -/
def State.setSt (s : State) (b : Byte) : State := { s with st := b }

/-- The advance of `pc` by 2, modulo 65536, before dispatch; also what a skip adds (30_encoding.md R53, 40_control_flow.md R77). -/
def State.advance (s : State) : State := s.setPc (s.pc + 2)

/-- A skip: `pc <- (npc + 2) mod 65536` if the condition holds (40_control_flow.md R77). -/
def State.skipIf (s : State) (condition : Bool) : State := if condition then s.advance else s

/-- The cell an address selects: its low 12 bits (20_memory.md R31). -/
def cellOf (a : Nat) : Nat := a % Config.memSize

/-- `MemRead(a, 1)` (20_memory.md R31). -/
def State.readByte (s : State) (a : Nat) : Byte := Memory.read s.font s.mem (cellOf a)

/-- `MemWrite(a, 1, b)` (20_memory.md R31). -/
def State.writeByte (s : State) (a : Nat) (b : Byte) : State := { s with mem := Memory.write s.font s.mem (cellOf a) b }

/-- Bytes written at ascending addresses from `a`, each address masked separately (20_memory.md R31, R35). -/
def State.writeBytes (s : State) (a : Nat) : List Byte → State
  | [] => s
  | b :: bs => State.writeBytes (s.writeByte a b) (a + 1) bs

/-- The registers V0 to `V[n-1]`, in ascending order. -/
def State.firstRegs (s : State) (n : Nat) : List Byte := s.v.toList.take n

/-- `V[k] <- MemRead(a + k, 1)` for `k` = 0 to `n`-1 ascending (42_index_memory.md R105). -/
def State.loadFrom (s : State) (a : Nat) : Nat → State
  | 0 => s
  | k + 1 => (State.loadFrom s a k).setV (Fin.ofNat 16 k) (s.readByte (a + k))

/-- The instruction word at `pc`, high byte first, each address masked separately (30_encoding.md R51, 20_memory.md R33). -/
def State.fetchWord (s : State) : Word := wordOfBytes (s.readByte s.pc.toNat) (s.readByte (s.pc.toNat + 1))

/-- `Pix(px, py)` with the coordinates wrapped to 64 columns and 32 rows (10_state.md R19, 43_display.md R111). -/
def State.pixel (s : State) (px py : Nat) : Bool := (s.pix[Fin.ofNat 32 py]).getLsbD (px % 64)

/-- `Pix(px, py) <- Pix(px, py) ^ 1`, coordinates wrapped (43_display.md R111). -/
def State.togglePixel (s : State) (px py : Nat) : State :=
  { s with pix := s.pix.set (Fin.ofNat 32 py) (s.pix[Fin.ofNat 32 py] ^^^ (1#64 <<< (px % 64))) }

/-- Every display cell 0 (43_display.md R110). -/
def State.clearPixels (s : State) : State := { s with pix := Vector.replicate 32 0 }

/-- `Key[k]` (00_scope.md R8). -/
def State.key (s : State) (k : KeyIx) : Bool := s.keys[k]

/-- `Key[k] <- pressed` (44_timer_keypad.md R127). -/
def State.setKey (s : State) (k : KeyIx) (pressed : Bool) : State := { s with keys := s.keys.set k pressed }

/-- TAKING A FAULT (60_exceptions.md R133): `status` records the cause and nothing else changes; `pc` stays at `npc`, where
the advance before dispatch left it. The machine stops at the next Step (R134). -/
def State.raise (s : State) (cause : Fault) : State := { s with status := .faulted cause }

/-- Push a return address, or overflow: `stack[sp] <- w; sp <- sp + 1` (40_control_flow.md R72). `none` is `sp = 16`. -/
def State.push? (s : State) (w : Word) : Option State :=
  if h : s.sp.val < 16 then
    some { s with stack := s.stack.set s.sp.val w, sp := ⟨s.sp.val + 1, Nat.succ_lt_succ h⟩ }
  else none

/-- Pop a return address, or underflow: `sp <- sp - 1`, and the entry there, which is not cleared (40_control_flow.md R70).
`none` is `sp = 0`. -/
def State.pop? (s : State) : Option (Word × State) :=
  match s.sp with
  | ⟨0, _⟩ => none
  | ⟨k + 1, h⟩ => some (s.stack[k]'(Nat.lt_of_succ_lt_succ h), { s with sp := ⟨k, Nat.lt_of_succ_lt h⟩ })

/-- The random byte of the next RND, and the counter past it (41_arith_logic.md R93). FREE VALUE, log entry 1. -/
def State.drawByte (s : State) : Byte × State := (Config.randomByte s.draws, { s with draws := s.draws + 1 })

end Sys2Proof.Machine
end

