-- ==== Sys2Proof/Machine/Operands.lean ====
section
/-! DEFINITION. The operand forms: immediates widened to 16 bits, the key a register names, the sprite in memory, the
decimal digits of a register (spec/30_encoding.md R61, spec/42_index_memory.md R103, R106, spec/44_timer_keypad.md R120). -/

namespace Sys2Proof.Machine

/-- `zext_16(nnn)` (30_encoding.md R61). -/
def addrOfImm (nnn : Imm12) : Word := nnn.setWidth 16

/-- `zext_16` of a register (42_index_memory.md R101). -/
def wordOfByte (b : Byte) : Word := b.setWidth 16

/-- The key a register names: its low 4 bits (44_timer_keypad.md R120). -/
def keyOfByte (b : Byte) : KeyIx := (b.extractLsb' 0 4).toFin

/-- The key index as a byte (44_timer_keypad.md R125). -/
def byteOfKey (k : KeyIx) : Byte := BitVec.ofNat 8 k.val

/-- The keys LD Vx,K scans, in its order; key 15 is not among them (44_timer_keypad.md R125). -/
def scannedKeys : List KeyIx := [0, 1, 2, 3, 4, 5, 6, 7, 8, 9, 10, 11, 12, 13, 14]

/-- The first pressed key of the scan (44_timer_keypad.md R125). -/
def State.firstKey? (s : State) : Option KeyIx := scannedKeys.find? s.key

/-- Row `row` of the sprite at `base` (43_display.md R111). -/
def State.spriteRow (s : State) (base row : Nat) : Byte := s.readByte (base + row)

/-- Column `col` of a sprite byte: bit 7 is column 0 (43_display.md R112). -/
def spriteBit (b : Byte) (col : Nat) : Bool := b.getLsbD (7 - col)

/-- Hundreds, tens and ones digit of a byte (42_index_memory.md R103). -/
def decimalDigits (b : Byte) : List Byte :=
  [BitVec.ofNat 8 (b.toNat / 100), BitVec.ofNat 8 (b.toNat / 10 % 10), BitVec.ofNat 8 (b.toNat % 10)]

/-- The address of a font glyph: the whole byte times 5 (42_index_memory.md R102). -/
def glyphAddr (b : Byte) : Word := wordOfByte b * 5

end Sys2Proof.Machine
end

