-- ==== Sys2Proof/Machine/Flags.lean ====
section
/-! DEFINITION. Every flag the spec computes into VF (spec/10_state.md R12), and the order in which a flag and a result
are written (spec/41_arith_logic.md R80). -/

namespace Sys2Proof.Machine

/-- A flag as VF holds it: 0x00 or 0x01 (10_state.md R12). -/
def flagByte (b : Bool) : Byte := if b then 1 else 0

/-- Carry out of an addition (41_arith_logic.md R87). -/
def carryFlag (a b : Byte) : Byte := flagByte (decide (a.toNat + b.toNat > 255))

/-- Strictly greater (41_arith_logic.md R88, R90). -/
def greaterFlag (a b : Byte) : Byte := flagByte (decide (a.toNat > b.toNat))

/-- The bit a right shift moves out (41_arith_logic.md R89). -/
def lowBitFlag (a : Byte) : Byte := flagByte (a.getLsbD 0)

/-- The bit a left shift moves out (41_arith_logic.md R91). -/
def highBitFlag (a : Byte) : Byte := flagByte (a.getLsbD 7)

/-- Flag first, result second: with `x = 15` the result is what remains (41_arith_logic.md R80). -/
def State.setFlagThenV (s : State) (flag : Byte) (x : RegIx) (result : Byte) : State :=
  (s.setV flagReg flag).setV x result

end Sys2Proof.Machine
end

