-- ==== Sys2Proof/Machine/Arith.lean ====
section
/-! DEFINITION. Register load, arithmetic, logic, shift and random instructions (spec/41_arith_logic.md). Operands are read
before any write, the flag is written before the result (R80). -/

namespace Sys2Proof.Machine

/-- `LD Vx,kk` (41_arith_logic.md R81). -/
def execLdImm (x : RegIx) (kk : Byte) (s : State) : Host.Outcome State Fault Refusal := .next (s.setV x kk)

/-- `ADD Vx,kk` (41_arith_logic.md R82): modulo 256, no flag. -/
def execAddImm (x : RegIx) (kk : Byte) (s : State) : Host.Outcome State Fault Refusal :=
  .next (s.setV x (s.getV x + kk))

/-- `LD Vx,Vy` (41_arith_logic.md R83). -/
def execLdReg (x y : RegIx) (s : State) : Host.Outcome State Fault Refusal := .next (s.setV x (s.getV y))

/-- `OR Vx,Vy` (41_arith_logic.md R84): no flag. -/
def execOrReg (x y : RegIx) (s : State) : Host.Outcome State Fault Refusal :=
  .next (s.setV x (s.getV x ||| s.getV y))

/-- `AND Vx,Vy` (41_arith_logic.md R85): no flag. -/
def execAndReg (x y : RegIx) (s : State) : Host.Outcome State Fault Refusal :=
  .next (s.setV x (s.getV x &&& s.getV y))

/-- `XOR Vx,Vy` (41_arith_logic.md R86): no flag. -/
def execXorReg (x y : RegIx) (s : State) : Host.Outcome State Fault Refusal :=
  .next (s.setV x (s.getV x ^^^ s.getV y))

/-- `ADD Vx,Vy` (41_arith_logic.md R87): VF is the carry. -/
def execAddReg (x y : RegIx) (s : State) : Host.Outcome State Fault Refusal :=
  .next (s.setFlagThenV (carryFlag (s.getV x) (s.getV y)) x (s.getV x + s.getV y))

/-- `SUB Vx,Vy` (41_arith_logic.md R88): VF is `Vx > Vy`. -/
def execSubReg (x y : RegIx) (s : State) : Host.Outcome State Fault Refusal :=
  .next (s.setFlagThenV (greaterFlag (s.getV x) (s.getV y)) x (s.getV x - s.getV y))

/-- `SHR Vx` (41_arith_logic.md R89): in place, VF is the old bit 0. -/
def execShr (x : RegIx) (s : State) : Host.Outcome State Fault Refusal :=
  .next (s.setFlagThenV (lowBitFlag (s.getV x)) x (s.getV x >>> 1))

/-- `SUBN Vx,Vy` (41_arith_logic.md R90): VF is `Vy > Vx`. -/
def execSubnReg (x y : RegIx) (s : State) : Host.Outcome State Fault Refusal :=
  .next (s.setFlagThenV (greaterFlag (s.getV y) (s.getV x)) x (s.getV y - s.getV x))

/-- `SHL Vx` (41_arith_logic.md R91): in place, VF is the old bit 7. -/
def execShl (x : RegIx) (s : State) : Host.Outcome State Fault Refusal :=
  .next (s.setFlagThenV (highBitFlag (s.getV x)) x (s.getV x <<< 1))

/-- `RND Vx,kk` (41_arith_logic.md R93): one fresh draw, under the mask. -/
def execRnd (x : RegIx) (kk : Byte) (s : State) : Host.Outcome State Fault Refusal :=
  .next (s.drawByte.2.setV x (s.drawByte.1 &&& kk))

end Sys2Proof.Machine
end

