-- ==== Sys2Proof/Machine/Control.lean ====
section
/-! DEFINITION. The control-flow instructions (spec/40_control_flow.md). Each meaning starts from the state whose `pc` is
already `npc` (spec/30_encoding.md R53). -/

namespace Sys2Proof.Machine

/-- `RET` (40_control_flow.md R70). -/
def execRet (s : State) : Host.Outcome State Fault Refusal :=
  match s.pop? with
  | some (target, t) => .next (t.setPc target)
  | none => .next (s.raise .stackUnderflow)

/-- `JP nnn` (40_control_flow.md R71). -/
def execJp (nnn : Imm12) (s : State) : Host.Outcome State Fault Refusal := .next (s.setPc (addrOfImm nnn))

/-- `CALL nnn` (40_control_flow.md R72): the value pushed is `npc`. -/
def execCall (nnn : Imm12) (s : State) : Host.Outcome State Fault Refusal :=
  match s.push? s.pc with
  | some t => .next (t.setPc (addrOfImm nnn))
  | none => .next (s.raise .stackOverflow)

/-- `SE Vx,kk` (40_control_flow.md R73). -/
def execSeImm (x : RegIx) (kk : Byte) (s : State) : Host.Outcome State Fault Refusal :=
  .next (s.skipIf (s.getV x == kk))

/-- `SNE Vx,kk` (40_control_flow.md R74). -/
def execSneImm (x : RegIx) (kk : Byte) (s : State) : Host.Outcome State Fault Refusal :=
  .next (s.skipIf (s.getV x != kk))

/-- `SE Vx,Vy` (40_control_flow.md R75). -/
def execSeReg (x y : RegIx) (s : State) : Host.Outcome State Fault Refusal :=
  .next (s.skipIf (s.getV x == s.getV y))

/-- `SNE Vx,Vy` (40_control_flow.md R76). -/
def execSneReg (x y : RegIx) (s : State) : Host.Outcome State Fault Refusal :=
  .next (s.skipIf (s.getV x != s.getV y))

/-- `JP V0,nnn` (40_control_flow.md R78): the sum is kept in all 16 bits. -/
def execJpV0 (nnn : Imm12) (s : State) : Host.Outcome State Fault Refusal :=
  .next (s.setPc (addrOfImm nnn + wordOfByte (s.getV 0)))

/-- An unmapped opcode (40_control_flow.md R79): nothing; `pc` stays `npc`. -/
def execUnmapped (_op : Word) (s : State) : Host.Outcome State Fault Refusal := .next s

end Sys2Proof.Machine
end

