-- ==== Sys2Proof/Machine/Display.lean ====
section
/-! DEFINITION. The display instructions (spec/43_display.md). -/

namespace Sys2Proof.Machine

/-- `CLS` (43_display.md R110). -/
def execCls (s : State) : Host.Outcome State Fault Refusal := .next s.clearPixels

/-- One set sprite bit: VF becomes 1 if the pixel was on, and the pixel is toggled (43_display.md R111). -/
def State.drawPixel (s : State) (px py : Nat) : State :=
  if s.pixel px py then (s.setV flagReg 1).togglePixel px py else s.togglePixel px py

/-- Columns 0 to `n`-1 of one sprite byte, ascending; a bit of 0 leaves its pixel alone (43_display.md R111, R112). -/
def State.drawCols (s : State) (b : Byte) (vx py : Nat) : Nat → State
  | 0 => s
  | col + 1 =>
    let t := State.drawCols s b vx py col
    if spriteBit b col then t.drawPixel (vx + col) py else t

/-- Rows 0 to `n`-1 of the sprite at `base`, ascending (43_display.md R111). -/
def State.drawRows (s : State) (base vx vy : Nat) : Nat → State
  | 0 => s
  | row + 1 => (State.drawRows s base vx vy row).drawCols (s.spriteRow base row) vx (vy + row) 8

/-- `DRW Vx,Vy,n` (43_display.md R111): coordinates and `I` are read before VF is cleared. -/
def execDrw (x y : RegIx) (n : RowCount) (s : State) : Host.Outcome State Fault Refusal :=
  .next ((s.setV flagReg 0).drawRows s.i.toNat (s.getV x).toNat (s.getV y).toNat n.val)

end Sys2Proof.Machine
end

