-- ==== Sys2Proof/Machine/Index.lean ====
section
/-! DEFINITION. Index-register and memory instructions (spec/42_index_memory.md). Effective addresses are `I + k` with each
byte address masked separately (R106, spec/20_memory.md R31). -/

namespace Sys2Proof.Machine

/-- `LD I,nnn` (42_index_memory.md R100). -/
def execLdI (nnn : Imm12) (s : State) : Host.Outcome State Fault Refusal := .next (s.setI (addrOfImm nnn))

/-- `ADD I,Vx` (42_index_memory.md R101): modulo 65536, no flag. -/
def execAddI (x : RegIx) (s : State) : Host.Outcome State Fault Refusal :=
  .next (s.setI (s.i + wordOfByte (s.getV x)))

/-- `LD F,Vx` (42_index_memory.md R102): the whole byte times 5. -/
def execLdF (x : RegIx) (s : State) : Host.Outcome State Fault Refusal := .next (s.setI (glyphAddr (s.getV x)))

/-- `LD B,Vx` (42_index_memory.md R103): three digits, most significant first; `I` is unchanged. -/
def execLdB (x : RegIx) (s : State) : Host.Outcome State Fault Refusal :=
  .next (s.writeBytes s.i.toNat (decimalDigits (s.getV x)))

/-- `LD [I],Vx` (42_index_memory.md R104): V0 to `V[x-1]`, then `I` advances by `x`. -/
def execStoreRegs (x : RegIx) (s : State) : Host.Outcome State Fault Refusal :=
  .next ((s.writeBytes s.i.toNat (s.firstRegs x.val)).setI (s.i + BitVec.ofNat 16 x.val))

/-- `LD Vx,[I]` (42_index_memory.md R105): V0 to `V[x-1]`, then `I` advances by `x`. -/
def execLoadRegs (x : RegIx) (s : State) : Host.Outcome State Fault Refusal :=
  .next ((s.loadFrom s.i.toNat x.val).setI (s.i + BitVec.ofNat 16 x.val))

end Sys2Proof.Machine
end

