-- ==== Sys2Proof/Machine/TimerKey.lean ====
section
/-! DEFINITION. The timer and keypad instructions (spec/44_timer_keypad.md). -/

namespace Sys2Proof.Machine

/-- `SKP Vx` (44_timer_keypad.md R120). -/
def execSkp (x : RegIx) (s : State) : Host.Outcome State Fault Refusal :=
  .next (s.skipIf (s.key (keyOfByte (s.getV x))))

/-- `SKNP Vx` (44_timer_keypad.md R121). -/
def execSknp (x : RegIx) (s : State) : Host.Outcome State Fault Refusal :=
  .next (s.skipIf (!s.key (keyOfByte (s.getV x))))

/-- `LD Vx,DT` (44_timer_keypad.md R122). -/
def execLdVxDt (x : RegIx) (s : State) : Host.Outcome State Fault Refusal := .next (s.setV x s.dt)

/-- `LD Vx,K` (44_timer_keypad.md R125): one poll, no waiting; without a key nothing is written. -/
def execLdVxK (x : RegIx) (s : State) : Host.Outcome State Fault Refusal :=
  match s.firstKey? with
  | some k => .next (s.setV x (byteOfKey k))
  | none => .next s

/-- `LD DT,Vx` (44_timer_keypad.md R123). -/
def execLdDtVx (x : RegIx) (s : State) : Host.Outcome State Fault Refusal := .next (s.setDt (s.getV x))

/-- `LD ST,Vx` (44_timer_keypad.md R124). -/
def execLdStVx (x : RegIx) (s : State) : Host.Outcome State Fault Refusal := .next (s.setSt (s.getV x))

end Sys2Proof.Machine
end

