-- ==== Sys2Proof/Machine/Step.lean ====
section
/-! DEFINITION. One Step of the machine (spec/30_encoding.md R51, spec/60_exceptions.md R134) and where the next instruction
is fetched from. -/

namespace Sys2Proof.Machine

/-- The `Step` operation. Running: fetch, decode, advance `pc`, execute (30_encoding.md R51). Faulted: no effect, the
recorded fault (60_exceptions.md R134). A Step that faults answers the next state of 60_exceptions.md R133. -/
def step (s : State) : Host.Outcome State Fault Refusal :=
  match s.status with
  | .running => exec (decode s.fetchWord) s.advance
  | .faulted cause => .fault cause

/-- `s` with the instruction of table bits `w` at `pc`, and `Running`, without which no instruction is fetched; so the
next `step` runs exactly that instruction. It stands for the host's `LoadRom` (log entry 5). -/
def State.withFetchWord (s : State) (nbits w : Nat) : State :=
  { s.writeBytes s.pc.toNat (tableBytes nbits w) with status := .running }

end Sys2Proof.Machine
end

