-- ==== Sys2Proof/Machine/Session.lean ====
section
/-! DEFINITION. The host's operations on the core (spec/60_exceptions.md R142): everything the outside world can do to it,
one atomic operation at a time, in any order (spec/00_scope.md R3, spec/70_reset_and_hazards.md R152). -/

namespace Sys2Proof.Machine

/-- The host operations (60_exceptions.md R142). Arguments outside the stated ranges cannot be written down (92 D28). -/
inductive Operation where
  /-- `Reset` (70_reset_and_hazards.md R150). -/
  | reset
  /-- `LoadRom(image)` (20_memory.md R42). -/
  | loadRom (image : List Byte)
  /-- `Step` (30_encoding.md R51). -/
  | step
  /-- `TickTimers` (44_timer_keypad.md R126). -/
  | tickTimers
  /-- `SetKey(k, pressed)` (44_timer_keypad.md R127). -/
  | setKey (k : KeyIx) (pressed : Bool)
  /-- `SetPhysicalKey(code, pressed)` (44_timer_keypad.md R128). -/
  | setPhysicalKey (code : Nat) (pressed : Bool)
  /-- `ReadPixel(px, py)` (43_display.md R113). -/
  | readPixel (px : Fin 64) (py : Fin 32)
  /-- `ReadPixel` in its linear form (43_display.md R113). -/
  | readPixelIndex (index : Fin 2048)
  deriving DecidableEq, Repr

/-- What an operation returns to the host (60_exceptions.md R142). -/
inductive Reply where
  /-- No result: `Reset`, `TickTimers`, `SetKey`, `SetPhysicalKey`. -/
  | none
  /-- Success of `Step` or `LoadRom`. -/
  | ok
  /-- The failure of `LoadRom`, `RomTooLargeError` (20_memory.md R42). -/
  | romTooLarge
  /-- `fault(cause, pc0, op)`, from the Step that faults (60_exceptions.md R131). -/
  | fault (cause : Fault) (pc0 op : Word)
  /-- `fault(cause, ...)`, from a Step while Faulted: only the cause is state (60_exceptions.md R131, R134). -/
  | faultAgain (cause : Fault)
  /-- The pixel `ReadPixel` reads. -/
  | pixel (on : Bool)
  deriving DecidableEq, Repr

/-- A timer counted down by one, not below 0 (44_timer_keypad.md R126). -/
def countDown (b : Byte) : Byte := if b.toNat > 0 then b - 1 else b

/-- `TickTimers` (44_timer_keypad.md R126). -/
def State.tickTimers (s : State) : State := { s with dt := countDown s.dt, st := countDown s.st }

/-- `LoadRom(image)`: all of the image from `LOAD_OFFSET` on, or `none` when it would run past 0xFFF (20_memory.md R42). -/
def State.loadRom? (s : State) (image : List Byte) : Option State :=
  if image.length ≤ Config.memSize - Config.loadOffset then some (s.writeBytes Config.loadOffset image) else none

/-- `KEYMAP(code)`: the key whose entry of the 16-entry table is `code`, if any (44_timer_keypad.md R128). No two
keys have one code. FREE VALUE, log entry 3. -/
def keymap (code : Nat) : Option KeyIx := (List.finRange 16).find? fun k => Config.keyCode k == code

/-- `Reset` (70_reset_and_hazards.md R150): every piece of the spec's state to its reset value. The instance's font
stays, and the model's own counter of draws goes on, since a Reset makes no later draw an earlier one (log entry 1). -/
def State.doReset (s : State) : State := { State.resetWith s.font with draws := s.draws }

/-- What a Step that took `s` to `t` returns: `ok`, or the fault it recorded, with the address and word of its
instruction (60_exceptions.md R131). -/
def stepReply (s t : State) : Reply :=
  match t.status with
  | .running => .ok
  | .faulted cause => .fault cause s.pc s.fetchWord

/-- One host operation (60_exceptions.md R142). While Faulted all but `Step` act as when Running (R146). -/
def operate (s : State) : Operation → Host.Outcome (State × Reply) Fault Refusal
  | .reset => .next (s.doReset, .none)
  | .loadRom image =>
    match s.loadRom? image with
    | some t => .next (t, .ok)
    | none => .next (s, .romTooLarge)
  | .step =>
    match step s with
    | .next t => .next (t, stepReply s t)
    | .fault cause => .next (s, .faultAgain cause)
    | .refused r => .refused r
  | .tickTimers => .next (s.tickTimers, .none)
  | .setKey k pressed => .next (s.setKey k pressed, .none)
  | .setPhysicalKey code pressed =>
    match keymap code with
    | some k => .next (s.setKey k pressed, .none)
    | none => .next (s, .none)
  | .readPixel px py => .next (s, .pixel (s.pixel px.val py.val))
  | .readPixelIndex index => .next (s, .pixel (s.pixel (index.val % 64) (index.val / 64)))

/-- One host operation on a core, built with the font `f`, that may never have been reset (`none`): before the first `Reset` nothing but `Reset`
has a meaning (70_reset_and_hazards.md R151). -/
def deviceOperate (f : Font) : Option State → Operation → Host.Outcome (State × Reply) Fault Refusal
  | some s, o => operate s o
  | none, .reset => .next (State.resetWith f, .none)
  | none, _ => .refused .neverReset

/-- A session of the host: its operations one after the other (00_scope.md R3); what the core is then, and the replies in
order. -/
def session (f : Font) : Option State → List Operation → Host.Outcome (Option State × List Reply) Fault Refusal
  | d, [] => .next (d, [])
  | d, o :: os =>
    match deviceOperate f d o with
    | .next (t, r) =>
      match session f (some t) os with
      | .next (e, rs) => .next (e, r :: rs)
      | .fault c => .fault c
      | .refused c => .refused c
    | .fault c => .fault c
    | .refused c => .refused c

end Sys2Proof.Machine
end

