-- ==== Sys2Proof/Safety.lean ====
section
/-! DEFINITION. The terms in which claims are stated: the invariant of the machine, a run that has not faulted, the end of
a run, frames (what one state may differ from another in), and which pixels a sprite covers. -/

namespace Sys2Proof.Machine

/-- The machine's invariant: memory is canonical, and the reserved status code 3 is not held (10_state.md R21). -/
def State.Inv (s : State) : Prop := Memory.wf s.font s.mem = true ∧ s.status ≠ .faulted .outOfBoundsMemoryAccess

/-- No Step has faulted (60_exceptions.md R134). -/
def State.NotFaulted (s : State) : Prop := s.status = .running

/-- The end of a run in the usual sense: `pc` holds the address of a `JP` to itself (70_reset_and_hazards.md R158). -/
def State.AtSelfJump (s : State) : Prop :=
  s.NotFaulted ∧ s.pc.toNat < 0x1000 ∧ s.fetchWord = 0x1000#16 ||| s.pc

/-- Pixel (px, py) lies under a set bit of the sprite of `n` rows at `base` drawn at (vx, vy) (43_display.md R111). -/
def State.SpriteCovers (s : State) (base vx vy n px py : Nat) : Prop :=
  ∃ row < n, ∃ col < 8, spriteBit (s.spriteRow base row) col = true ∧ px = (vx + col) % 64 ∧ py = (vy + row) % 32

/-- Cell `a` is one of the `n` cells from address `base` on, each address masked separately (20_memory.md R31). -/
def Touches (base n a : Nat) : Prop := ∃ k < n, cellOf (base + k) = cellOf a

/-- Frame: `t` is `s` with, at most, other general registers; every byte of memory reads as before. -/
def OnlyV (s t : State) : Prop := t = { s with v := t.v } ∧ ∀ a, t.readByte a = s.readByte a

/-- Frame: `t` is `s` with, at most, another `pc`; every byte of memory reads as before. -/
def OnlyPc (s t : State) : Prop := t = { s with pc := t.pc } ∧ ∀ a, t.readByte a = s.readByte a

/-- Frame: `t` is `s` with, at most, another `I`; every byte of memory reads as before. -/
def OnlyI (s t : State) : Prop := t = { s with i := t.i } ∧ ∀ a, t.readByte a = s.readByte a

/-- Frame: register `x` is the only general register in which `t` may differ from `s`. -/
def OtherV (s t : State) (x : RegIx) : Prop := ∀ r, r ≠ x → t.getV r = s.getV r

/-- Frame: `x` and `VF` are the only general registers in which `t` may differ from `s`. -/
def OtherVF (s t : State) (x : RegIx) : Prop := ∀ r, r ≠ x → r ≠ flagReg → t.getV r = s.getV r

/-- Encoding: every word whose bits under `mask` are `value` decodes to the instruction `mk` builds from its fields
(30_encoding.md R56). -/
def Selects (mask value : Word) (mk : Word → Instr) : Prop := ∀ op : Word, op &&& mask = value → decode op = mk op

/-- The bits of its word an instruction depends on: all but the ignored ones of 30_encoding.md R58. -/
def usedBits : Instr → Word
  | .seReg _ _ => 0xFFF0
  | .sneReg _ _ => 0xFFF0
  | .shr _ => 0xFF0F
  | .shl _ => 0xFF0F
  | _ => 0xFFFF

end Sys2Proof.Machine
end

