-- ==== Sys2Proof/Certificates/Slice0/Obligations.lean ====
section
/-! DEFINITION. The statements for the provers. `s` is everywhere the state an instruction starts from, its `pc` already
`npc` (spec/30_encoding.md R53), unless the statement says `step` or `operate`. -/


open Sys2Proof Sys2Proof.Machine

/-- 30_encoding.md R51, R53: a Step of a running machine fetches the word at `pc`, advances `pc` by 2 modulo 65536 and
executes the decoded instruction; a Step of a faulted machine answers the recorded fault (its form: log entry 4). -/
def Obligations.StepRunsTheDecodedInstruction : Prop :=
  ∀ s : State,
    (∀ i, s.status = .running →
      decodeBytes [s.readByte s.pc.toNat, s.readByte (s.pc.toNat + 1)] = .ok (i, []) →
      step s = exec i { s with pc := s.pc + 2 }) ∧
    ∀ c, s.status = .faulted c → step s = .fault c

/-- R52 (30_encoding.md): the fields of a word, as numbers and as parts of its two bytes. -/
def Obligations.FieldsOfAWord : Prop :=
  ∀ op : Word,
    (fieldType op).toNat = op.toNat / 4096 ∧ (fieldX op).val = op.toNat / 256 % 16 ∧
    (fieldY op).val = op.toNat / 16 % 16 ∧ (fieldN op).val = op.toNat % 16 ∧
    (fieldKk op).toNat = op.toNat % 256 ∧ (fieldNnn op).toNat = op.toNat % 4096 ∧
    highByte op = fieldType op ++ nibbleOf (fieldX op) ∧ lowByte op = nibbleOf (fieldY op) ++ nibbleOf (fieldN op) ∧
    lowByte op = fieldKk op ∧ fieldNnn op = nibbleOf (fieldX op) ++ fieldKk op

/-- R56 (30_encoding.md): a word is the instruction of a row of the opcode map iff its bits under the row's mask are the
row's match; no two rows select one word; a word no row selects is unmapped. -/
def Obligations.OpcodeMapSelectsTheRow : Prop :=
  (∀ (op : Word) (k : Nat) (r : Word × Word), opcodeMap[k]? = some r →
    (op &&& r.1 = r.2 ↔ (decode op).row = k + 1)) ∧
  (∀ (op : Word) (j k : Nat) (q r : Word × Word), opcodeMap[j]? = some q → opcodeMap[k]? = some r →
    op &&& q.1 = q.2 → op &&& r.1 = r.2 → j = k) ∧
  opcodeMap.length = 34 ∧
  ∀ op : Word, (∀ r ∈ opcodeMap, op &&& r.1 ≠ r.2) → decode op = .unmapped op

/-- R58 (30_encoding.md): only the ignored bits are lost in decoding, and two words that differ only in bits their
instruction ignores are the same instruction. -/
def Obligations.OnlyIgnoredBitsAreIgnored : Prop :=
  (∀ op : Word, encode (decode op) = op &&& usedBits (decode op)) ∧
  ∀ op op' : Word, op &&& usedBits (decode op) = op' &&& usedBits (decode op) → decode op' = decode op

/-- R60 (30_encoding.md): decoding is total: every word is a well-formed instruction, and it is the no-op exactly when it is
one of the unmapped words of R59's table. -/
def Obligations.DecodeIsTotal : Prop :=
  ∀ op : Word, (decode op).wf = true ∧ (isUnmapped op = true ↔ decode op = .unmapped op) ∧
    ((decode op).row = 35 ↔ isUnmapped op = true)

/-- Decoding an encoded well-formed instruction gives it back, with every operand at every value, from its word and from
its bytes in memory order. -/
def Obligations.DecodeOfEncode : Prop :=
  ∀ i : Instr, i.wf = true →
    decode (encode i) = i ∧ ∀ rest, decodeBytes (encodeBytes i ++ rest) = .ok (i, rest)

/-- A few words written out from the spec decode to the instructions they stand for (95_test_vectors.md §2.1). -/
def Obligations.SampleWordsDecode : Prop :=
  decode 0x00E0 = .cls ∧ decode 0x01E0 = .unmapped 0x01E0 ∧ decode 0x2FFF = .call 0xFFF ∧ decode 0x512B = .seReg 1 2 ∧
  decode 0x8AB4 = .addReg 0xA 0xB ∧ decode 0xD125 = .drw 1 2 5 ∧ decode 0xE1A1 = .sknp 1 ∧ decode 0xF165 = .loadRegs 1

/-- R70 (40_control_flow.md): RET pops the return address into `pc`, the entry stays; at `sp = 0` it faults. That the
faulting Step answers a next state is the model's reading (log entry 4). -/
def Obligations.ReturnPopsTheStack : Prop :=
  Selects 0xFFFF 0x00EE (fun _ => .ret) ∧
  ∀ s : State,
    (∀ (k : Nat) (hk : k < 16), s.sp.val = k + 1 →
      ∃ t, exec .ret s = .next t ∧ t.pc = s.stack[k] ∧ t.sp.val = k ∧
        t = { s with pc := t.pc, sp := t.sp } ∧ ∀ a, t.readByte a = s.readByte a) ∧
    (s.sp.val = 0 → exec .ret s = .next { s with status := .faulted .stackUnderflow })

/-- R71, R78 (40_control_flow.md): the two jumps. -/
def Obligations.JumpsSetPc : Prop :=
  Selects 0xF000 0x1000 (fun op => .jp (fieldNnn op)) ∧ Selects 0xF000 0xB000 (fun op => .jpV0 (fieldNnn op)) ∧
  ∀ (nnn : Imm12) (s : State),
    (∃ t, exec (.jp nnn) s = .next t ∧ t.pc.toNat = nnn.toNat ∧ OnlyPc s t) ∧
    (∃ t, exec (.jpV0 nnn) s = .next t ∧ t.pc.toNat = nnn.toNat + (s.getV 0).toNat ∧ OnlyPc s t)

/-- R72 (40_control_flow.md): CALL pushes `npc` and jumps; at `sp = 16` it faults. That the
faulting Step answers a next state is the model's reading (log entry 4). -/
def Obligations.CallPushesTheReturnAddress : Prop :=
  Selects 0xF000 0x2000 (fun op => .call (fieldNnn op)) ∧
  ∀ (nnn : Imm12) (s : State),
    (s.sp.val < 16 →
      ∃ t, exec (.call nnn) s = .next t ∧ t.pc.toNat = nnn.toNat ∧ t.sp.val = s.sp.val + 1 ∧
        (∀ j : Fin 16, t.stack[j] = if j.val = s.sp.val then s.pc else s.stack[j]) ∧
        t = { s with pc := t.pc, sp := t.sp, stack := t.stack } ∧ ∀ a, t.readByte a = s.readByte a) ∧
    (s.sp.val = 16 → exec (.call nnn) s = .next { s with status := .faulted .stackOverflow })

/-- R73, R74 (40_control_flow.md): the skips that compare a register with a byte. -/
def Obligations.SkipsOnAByte : Prop :=
  Selects 0xF000 0x3000 (fun op => .seImm (fieldX op) (fieldKk op)) ∧
  Selects 0xF000 0x4000 (fun op => .sneImm (fieldX op) (fieldKk op)) ∧
  ∀ (x : RegIx) (kk : Byte) (s : State),
    (∃ t, exec (.seImm x kk) s = .next t ∧ (t.pc = if s.getV x = kk then s.pc + 2 else s.pc) ∧ OnlyPc s t) ∧
    (∃ t, exec (.sneImm x kk) s = .next t ∧ (t.pc = if s.getV x ≠ kk then s.pc + 2 else s.pc) ∧ OnlyPc s t)

/-- R75, R76 (40_control_flow.md): the skips that compare two registers; the low nibble of the word takes no part. -/
def Obligations.SkipsOnARegister : Prop :=
  Selects 0xF000 0x5000 (fun op => .seReg (fieldX op) (fieldY op)) ∧
  Selects 0xF000 0x9000 (fun op => .sneReg (fieldX op) (fieldY op)) ∧
  ∀ (x y : RegIx) (s : State),
    (∃ t, exec (.seReg x y) s = .next t ∧ (t.pc = if s.getV x = s.getV y then s.pc + 2 else s.pc) ∧ OnlyPc s t) ∧
    (∃ t, exec (.sneReg x y) s = .next t ∧ (t.pc = if s.getV x ≠ s.getV y then s.pc + 2 else s.pc) ∧ OnlyPc s t)

/-- R79 (40_control_flow.md): a word of R59's table decodes to the no-op, which changes nothing: a Step on it moves `pc` by 2
and does nothing else. -/
def Obligations.UnmappedOpcodeIsANoOp : Prop :=
  (∀ op : Word, isUnmapped op = true → decode op = .unmapped op) ∧
  (∀ (op : Word) (s : State), exec (.unmapped op) s = .next s) ∧
  ∀ s : State, s.status = .running → isUnmapped s.fetchWord = true → step s = .next { s with pc := s.pc + 2 }

/-- R81, R82, R83 (41_arith_logic.md): load immediate, add immediate without flag, copy. -/
def Obligations.LoadsAndAddImmediate : Prop :=
  Selects 0xF000 0x6000 (fun op => .ldImm (fieldX op) (fieldKk op)) ∧
  Selects 0xF000 0x7000 (fun op => .addImm (fieldX op) (fieldKk op)) ∧
  Selects 0xF00F 0x8000 (fun op => .ldReg (fieldX op) (fieldY op)) ∧
  ∀ (x y : RegIx) (kk : Byte) (s : State),
    (∃ t, exec (.ldImm x kk) s = .next t ∧ t.getV x = kk ∧ OtherV s t x ∧ OnlyV s t) ∧
    (∃ t, exec (.addImm x kk) s = .next t ∧ (t.getV x).toNat = ((s.getV x).toNat + kk.toNat) % 256 ∧
      OtherV s t x ∧ OnlyV s t) ∧
    (∃ t, exec (.ldReg x y) s = .next t ∧ t.getV x = s.getV y ∧ OtherV s t x ∧ OnlyV s t)

/-- R84, R85, R86 (41_arith_logic.md): OR, AND, XOR, bit by bit; VF is not written, which is the spec's
decision D23. -/
def Obligations.BitwiseLogic : Prop :=
  Selects 0xF00F 0x8001 (fun op => .orReg (fieldX op) (fieldY op)) ∧
  Selects 0xF00F 0x8002 (fun op => .andReg (fieldX op) (fieldY op)) ∧
  Selects 0xF00F 0x8003 (fun op => .xorReg (fieldX op) (fieldY op)) ∧
  ∀ (x y : RegIx) (s : State),
    (∃ t, exec (.orReg x y) s = .next t ∧
      (∀ b, (t.getV x).getLsbD b = ((s.getV x).getLsbD b || (s.getV y).getLsbD b)) ∧ OtherV s t x ∧ OnlyV s t) ∧
    (∃ t, exec (.andReg x y) s = .next t ∧
      (∀ b, (t.getV x).getLsbD b = ((s.getV x).getLsbD b && (s.getV y).getLsbD b)) ∧ OtherV s t x ∧ OnlyV s t) ∧
    (∃ t, exec (.xorReg x y) s = .next t ∧
      (∀ b, (t.getV x).getLsbD b = ((s.getV x).getLsbD b ^^ (s.getV y).getLsbD b)) ∧ OtherV s t x ∧ OnlyV s t)

/-- R87 (41_arith_logic.md): ADD Vx,Vy: the sum modulo 256 and the carry in VF; with `x = 15` VF ends as the sum. -/
def Obligations.AddWithCarry : Prop :=
  Selects 0xF00F 0x8004 (fun op => .addReg (fieldX op) (fieldY op)) ∧
  ∀ (x y : RegIx) (s : State),
    ∃ t, exec (.addReg x y) s = .next t ∧
      (t.getV x).toNat = ((s.getV x).toNat + (s.getV y).toNat) % 256 ∧
      (x ≠ flagReg → t.getV flagReg = if (s.getV x).toNat + (s.getV y).toNat > 255 then 1 else 0) ∧
      OtherVF s t x ∧ OnlyV s t

/-- R88, R90 (41_arith_logic.md): SUB and SUBN: the difference modulo 256, VF the strict comparison; with `x = 15` VF ends as
the difference. -/
def Obligations.SubtractWithStrictFlag : Prop :=
  Selects 0xF00F 0x8005 (fun op => .subReg (fieldX op) (fieldY op)) ∧
  Selects 0xF00F 0x8007 (fun op => .subnReg (fieldX op) (fieldY op)) ∧
  ∀ (x y : RegIx) (s : State),
    (∃ t, exec (.subReg x y) s = .next t ∧
      (t.getV x).toNat = ((s.getV x).toNat + 256 - (s.getV y).toNat) % 256 ∧
      (x ≠ flagReg → t.getV flagReg = if (s.getV x).toNat > (s.getV y).toNat then 1 else 0) ∧
      OtherVF s t x ∧ OnlyV s t) ∧
    (∃ t, exec (.subnReg x y) s = .next t ∧
      (t.getV x).toNat = ((s.getV y).toNat + 256 - (s.getV x).toNat) % 256 ∧
      (x ≠ flagReg → t.getV flagReg = if (s.getV y).toNat > (s.getV x).toNat then 1 else 0) ∧
      OtherVF s t x ∧ OnlyV s t)

/-- R89, R91 (41_arith_logic.md): SHR and SHL shift Vx in place by one, VF is the bit shifted out; with `x = 15` VF ends as
the result. -/
def Obligations.ShiftsByOne : Prop :=
  Selects 0xF00F 0x8006 (fun op => .shr (fieldX op)) ∧ Selects 0xF00F 0x800E (fun op => .shl (fieldX op)) ∧
  ∀ (x : RegIx) (s : State),
    (∃ t, exec (.shr x) s = .next t ∧ (t.getV x).toNat = (s.getV x).toNat / 2 ∧
      (x ≠ flagReg → (t.getV flagReg).toNat = (s.getV x).toNat % 2) ∧ OtherVF s t x ∧ OnlyV s t) ∧
    (∃ t, exec (.shl x) s = .next t ∧ (t.getV x).toNat = (s.getV x).toNat * 2 % 256 ∧
      (x ≠ flagReg → (t.getV flagReg).toNat = (s.getV x).toNat / 128) ∧ OtherVF s t x ∧ OnlyV s t)

/-- R93 (41_arith_logic.md): RND takes one draw and stores it under the mask; it holds for every sequence of draws. The counter
`draws` is the model's own (log entry 1). -/
def Obligations.RandomByteUnderMask : Prop :=
  Selects 0xF000 0xC000 (fun op => .rnd (fieldX op) (fieldKk op)) ∧
  ∀ (x : RegIx) (kk : Byte) (s : State),
    ∃ t, exec (.rnd x kk) s = .next t ∧ t.getV x = Config.randomByte s.draws &&& kk ∧ OtherV s t x ∧
      t = { s with v := t.v, draws := s.draws + 1 } ∧ ∀ a, t.readByte a = s.readByte a

/-- R100, R101 (42_index_memory.md): LD I,nnn and ADD I,Vx set `I` and touch nothing else. -/
def Obligations.IndexRegisterLoads : Prop :=
  Selects 0xF000 0xA000 (fun op => .ldI (fieldNnn op)) ∧ Selects 0xF0FF 0xF01E (fun op => .addI (fieldX op)) ∧
  ∀ (nnn : Imm12) (x : RegIx) (s : State),
    (∃ t, exec (.ldI nnn) s = .next t ∧ t.i.toNat = nnn.toNat ∧ OnlyI s t) ∧
    (∃ t, exec (.addI x) s = .next t ∧ t.i.toNat = (s.i.toNat + (s.getV x).toNat) % 65536 ∧ OnlyI s t)

/-- R102 (42_index_memory.md): LD F,Vx sets `I` to 5 times the whole byte (the spec's decision D24) and touches nothing
else. -/
def Obligations.GlyphAddress : Prop :=
  Selects 0xF0FF 0xF029 (fun op => .ldF (fieldX op)) ∧
  ∀ (x : RegIx) (s : State),
    ∃ t, exec (.ldF x) s = .next t ∧ t.i.toNat = (s.getV x).toNat * 5 ∧ OnlyI s t

/-- R103 (42_index_memory.md): LD B,Vx stores hundreds, tens and ones at `I`, `I+1`, `I+2`, each address masked, and changes
nothing else. -/
def Obligations.StoreDecimalDigits : Prop :=
  Selects 0xF0FF 0xF033 (fun op => .ldB (fieldX op)) ∧
  ∀ (x : RegIx) (s : State), Memory.wf s.font s.mem = true →
    ∃ t, exec (.ldB x) s = .next t ∧
      (t.readByte s.i.toNat).toNat = (s.getV x).toNat / 100 ∧
      (t.readByte (s.i.toNat + 1)).toNat = (s.getV x).toNat / 10 % 10 ∧
      (t.readByte (s.i.toNat + 2)).toNat = (s.getV x).toNat % 10 ∧
      (∀ a, ¬ Touches s.i.toNat 3 a → t.readByte a = s.readByte a) ∧ t = { s with mem := t.mem }

/-- R104 (42_index_memory.md): LD [I],Vx stores V0 to V(x-1) from `I` on, advances `I` by `x` (how far is the spec's
decision D13), and changes nothing else. -/
def Obligations.StoreRegisters : Prop :=
  Selects 0xF0FF 0xF055 (fun op => .storeRegs (fieldX op)) ∧
  ∀ (x : RegIx) (s : State), Memory.wf s.font s.mem = true →
    ∃ t, exec (.storeRegs x) s = .next t ∧
      (∀ r : RegIx, r < x → t.readByte (s.i.toNat + r.val) = s.getV r) ∧
      (∀ a, ¬ Touches s.i.toNat x.val a → t.readByte a = s.readByte a) ∧
      t.i.toNat = (s.i.toNat + x.val) % 65536 ∧ t = { s with mem := t.mem, i := t.i }

/-- R105 (42_index_memory.md): LD Vx,[I] loads V0 to V(x-1) from `I` on, advances `I` by `x` (how far is the spec's
decision D13), and changes nothing else. -/
def Obligations.LoadRegisters : Prop :=
  Selects 0xF0FF 0xF065 (fun op => .loadRegs (fieldX op)) ∧
  ∀ (x : RegIx) (s : State),
    ∃ t, exec (.loadRegs x) s = .next t ∧
      (∀ r : RegIx, t.getV r = if r < x then s.readByte (s.i.toNat + r.val) else s.getV r) ∧
      t.i.toNat = (s.i.toNat + x.val) % 65536 ∧ t = { s with v := t.v, i := t.i } ∧
      ∀ a, t.readByte a = s.readByte a

/-- R110 (43_display.md): CLS clears all 2048 cells and changes nothing else. -/
def Obligations.ClearDisplay : Prop :=
  Selects 0xFFFF 0x00E0 (fun _ => .cls) ∧
  ∀ s : State,
    ∃ t, exec .cls s = .next t ∧ (∀ px py, t.pixel px py = false) ∧ t = { s with pix := t.pix } ∧
      ∀ a, t.readByte a = s.readByte a

/-- R111 (43_display.md): DRW toggles exactly the pixels under set sprite bits, coordinates wrapped per pixel; VF is 1 iff one
of them was on, else 0; nothing else changes. Which bit is which column, and that a coordinate in VF is read before VF is
cleared, are the spec's decisions D14 and D7. -/
def Obligations.DrawSprite : Prop :=
  Selects 0xF000 0xD000 (fun op => .drw (fieldX op) (fieldY op) (fieldN op)) ∧
  ∀ (x y : RegIx) (n : RowCount) (s : State),
    ∃ t, exec (.drw x y n) s = .next t ∧
      (∀ px < 64, ∀ py < 32,
        (t.pixel px py ≠ s.pixel px py ↔
          s.SpriteCovers s.i.toNat (s.getV x).toNat (s.getV y).toNat n.val px py)) ∧
      (t.getV flagReg = 1 ↔
        ∃ px py, s.SpriteCovers s.i.toNat (s.getV x).toNat (s.getV y).toNat n.val px py ∧ s.pixel px py = true) ∧
      (t.getV flagReg = 0 ∨ t.getV flagReg = 1) ∧ OtherV s t flagReg ∧
      t = { s with v := t.v, pix := t.pix } ∧ ∀ a, t.readByte a = s.readByte a

/-- R114 (43_display.md): the same DRW twice restores the display; VF after the first is 1 iff a set sprite bit landed on a
pixel that was on, after the second iff one landed on a pixel that was off before the first. -/
def Obligations.DrawTwiceRestores : Prop :=
  ∀ (x y : RegIx) (n : RowCount) (s : State), x ≠ flagReg → y ≠ flagReg →
    ∃ t u, exec (.drw x y n) s = .next t ∧ exec (.drw x y n) t = .next u ∧ u.pix = s.pix ∧
      (t.getV flagReg = 1 ↔
        ∃ px py, s.SpriteCovers s.i.toNat (s.getV x).toNat (s.getV y).toNat n.val px py ∧ s.pixel px py = true) ∧
      (u.getV flagReg = 1 ↔
        ∃ px py, s.SpriteCovers s.i.toNat (s.getV x).toNat (s.getV y).toNat n.val px py ∧ s.pixel px py = false)

/-- R120, R121 (44_timer_keypad.md): the skips on the key that the low 4 bits of Vx name (which bits is
the spec's decision D12). -/
def Obligations.SkipsOnAKey : Prop :=
  Selects 0xF0FF 0xE09E (fun op => .skp (fieldX op)) ∧ Selects 0xF0FF 0xE0A1 (fun op => .sknp (fieldX op)) ∧
  ∀ (x : RegIx) (k : KeyIx) (s : State), k.val = (s.getV x).toNat % 16 →
    (∃ t, exec (.skp x) s = .next t ∧ (t.pc = if s.key k = true then s.pc + 2 else s.pc) ∧ OnlyPc s t) ∧
    (∃ t, exec (.sknp x) s = .next t ∧ (t.pc = if s.key k = false then s.pc + 2 else s.pc) ∧ OnlyPc s t)

/-- R122, R123, R124 (44_timer_keypad.md): the three timer loads. -/
def Obligations.TimerLoads : Prop :=
  Selects 0xF0FF 0xF007 (fun op => .ldVxDt (fieldX op)) ∧ Selects 0xF0FF 0xF015 (fun op => .ldDtVx (fieldX op)) ∧
  Selects 0xF0FF 0xF018 (fun op => .ldStVx (fieldX op)) ∧
  ∀ (x : RegIx) (s : State),
    (∃ t, exec (.ldVxDt x) s = .next t ∧ t.getV x = s.dt ∧ OtherV s t x ∧ OnlyV s t) ∧
    (∃ t, exec (.ldDtVx x) s = .next t ∧ t.dt = s.getV x ∧ t = { s with dt := t.dt } ∧
      ∀ a, t.readByte a = s.readByte a) ∧
    (∃ t, exec (.ldStVx x) s = .next t ∧ t.st = s.getV x ∧ t = { s with st := t.st } ∧
      ∀ a, t.readByte a = s.readByte a)

/-- R125 (44_timer_keypad.md): LD Vx,K stores the lowest pressed key among 0 to 14, or changes nothing; it does not wait
(the spec's decision D11). -/
def Obligations.KeyPollTakesTheLowestKey : Prop :=
  Selects 0xF0FF 0xF00A (fun op => .ldVxK (fieldX op)) ∧
  ∀ (x : RegIx) (s : State),
    (∀ k : KeyIx, k.val < 15 → s.key k = true → (∀ j : KeyIx, j < k → s.key j = false) →
      ∃ t, exec (.ldVxK x) s = .next t ∧ (t.getV x).toNat = k.val ∧ OtherV s t x ∧ OnlyV s t) ∧
    ((∀ k : KeyIx, k.val < 15 → s.key k = false) → exec (.ldVxK x) s = .next s)

/-- R132 (60_exceptions.md; the codes are the spec's decision D9, the form of a faulting Step log entry 4): the only instructions that fault are CALL, at `sp = 16`, and RET, at `sp = 0`, each with its
own cause; code 3 is recorded by nothing. -/
def Obligations.OnlyCallAndReturnFault : Prop :=
  (∀ (i : Instr) (s : State) (c : Fault), s.status = .running →
    (exec i s = .next { s with status := .faulted c } ↔
      ((∃ nnn, i = .call nnn) ∧ s.sp.val = 16 ∧ c = .stackOverflow) ∨
      (i = .ret ∧ s.sp.val = 0 ∧ c = .stackUnderflow))) ∧
  (∀ (i : Instr) (s t : State) (c : Fault), s.status = .running → exec i s = .next t → t.status = .faulted c →
    t = { s with status := .faulted c }) ∧
  Status.code .running = 0 ∧ Status.code (.faulted .stackOverflow) = 1 ∧
  Status.code (.faulted .stackUnderflow) = 2 ∧ Status.code (.faulted .outOfBoundsMemoryAccess) = 3

/-- R133 (60_exceptions.md; the spec's decision D9, its form log entry 4): the state after a faulting Step is the state before it with exactly two changes: `pc` is
`npc` and `status` records the cause. -/
def Obligations.FaultEntryChangesPcAndStatus : Prop :=
  ∀ (s t : State) (c : Fault), step s = .next t → t.status = .faulted c →
    t = { s with pc := s.pc + 2, status := .faulted c }

/-- R131 (60_exceptions.md; the spec's decision D9): a Step of a running machine returns `ok`, or the fault it records with the address and the word
of its instruction. -/
def Obligations.StepReportsItsFault : Prop :=
  ∀ s t : State, s.status = .running → step s = .next t →
    (t.status = .running → operate s .step = .next (t, .ok)) ∧
    ∀ c, t.status = .faulted c → operate s .step = .next (t, .fault c s.pc s.fetchWord)

/-- R134, R146 (60_exceptions.md; the spec's decisions D9 and D27, the reply's form log entry 9): while Faulted, Step changes nothing and answers the recorded fault, every other
operation but Reset does what it does when Running and keeps the fault, and Reset clears it. -/
def Obligations.FaultIsStickyUntilReset : Prop :=
  ∀ (s : State) (c : Fault), s.status = .faulted c →
    step s = .fault c ∧ operate s .step = .next (s, .faultAgain c) ∧
    (∀ o : Operation, o ≠ .step → o ≠ .reset →
      ∃ t r, operate s o = .next (t, r) ∧ t.status = .faulted c ∧
        operate { s with status := .running } o = .next ({ t with status := .running }, r)) ∧
    ∃ t r, operate s .reset = .next (t, r) ∧ t.status = .running

/-- R51 (30_encoding.md): "a Step always completes (with success or with a fault)": every instruction, and every Step of a
running machine, answers a next state. For CALL at `sp = 16` and RET at `sp = 0`, the Steps that complete with a fault, that
this is a next state (with status Faulted, of R133) is the model's reading (log entry 4). -/
def Obligations.RunningStepCompletes : Prop :=
  (∀ (i : Instr) (s : State), ∃ t, exec i s = .next t) ∧ ∀ s : State, s.status = .running → ∃ t, step s = .next t

/-- Every Step keeps the invariant: memory stays canonical, the reserved status code stays unused; and it leaves the
instance's font table, a parameter, as it is. -/
def Obligations.StepKeepsTheInvariant : Prop :=
  (∀ s t : State, s.Inv → step s = .next t → t.Inv) ∧ ∀ s t : State, step s = .next t → t.font = s.font

/-- The reset state meets the invariant, whatever the font, and so does the state a Reset gives from any state. -/
def Obligations.ResetMeetsTheInvariant : Prop :=
  State.reset.Inv ∧ (∀ f : Font, (State.resetWith f).Inv) ∧ ∀ (s t : State) (r : Reply), operate s .reset = .next (t, r) → t.Inv

/-- Every session of host operations, from a core that has never been reset, leaves a core that meets the invariant and
still has the font table it was built with, whatever that is (R6: a parameter of the instance). -/
def Obligations.EverySessionKeepsTheInvariant : Prop :=
  (∀ (s t : State) (o : Operation) (r : Reply), operate s o = .next (t, r) → (s.Inv → t.Inv) ∧ t.font = s.font) ∧
  ∀ (f : Font) (os : List Operation) (t : State) (rs : List Reply),
    session f none os = .next (some t, rs) → t.Inv ∧ t.font = f

/-- R23, R150 (10_state.md, 70_reset_and_hazards.md): what Reset leaves, from any state of any instance: its font table
`s.font`, whatever its bytes, at the low addresses. `State.resetWith s.font` is that state. -/
def Obligations.ResetValues : Prop :=
  ∀ s : State,
    ∃ t, operate s .reset = .next (t, .none) ∧ (∀ r, t.getV r = 0) ∧ t.i = 0 ∧ t.pc = 0x0200 ∧ t.sp = 0 ∧
      (∀ j : Fin 16, t.stack[j] = 0) ∧ t.dt = 0 ∧ t.st = 0 ∧
      (∀ (a : Nat) (h : a < s.font.bytes.length), t.readByte a = s.font.bytes[a]) ∧
      (∀ a, s.font.bytes.length ≤ a → a < 4096 → t.readByte a = 0) ∧
      (∀ px py, t.pixel px py = false) ∧ (∀ k, t.key k = false) ∧ t.status = .running ∧
      t = { State.resetWith s.font with draws := t.draws }

/-- R42 (20_memory.md; all or nothing is the spec's decision D17): LoadRom copies an image of at most 3584 bytes to 0x200 and changes nothing else, or fails and
changes nothing. -/
def Obligations.LoadRomCopiesOrFails : Prop :=
  ∀ (s : State) (image : List Byte), Memory.wf s.font s.mem = true →
    (image.length > 3584 → operate s (.loadRom image) = .next (s, .romTooLarge)) ∧
    (image.length ≤ 3584 →
      ∃ t, operate s (.loadRom image) = .next (t, .ok) ∧
        (∀ (j : Nat) (h : j < image.length), t.readByte (0x200 + j) = image[j]) ∧
        (∀ a, a < 4096 → (a < 0x200 ∨ 0x200 + image.length ≤ a) → t.readByte a = s.readByte a) ∧
        t = { s with mem := t.mem })

/-- R126 (44_timer_keypad.md): TickTimers counts both timers down by one, not below 0, and changes nothing else. -/
def Obligations.TickCountsTimersDown : Prop :=
  ∀ s : State,
    ∃ t, operate s .tickTimers = .next (t, .none) ∧ t.dt.toNat = s.dt.toNat - 1 ∧ t.st.toNat = s.st.toNat - 1 ∧
      t = { s with dt := t.dt, st := t.st }

/-- R127, R128 (44_timer_keypad.md): SetKey sets one key state; SetPhysicalKey is SetKey through the key map, or nothing.
The map has 16 entries, one per key; which codes they are is a free value (log entry 3). -/
def Obligations.KeyOperations : Prop :=
  (∀ (s : State) (k : KeyIx) (p : Bool),
    ∃ t, operate s (.setKey k p) = .next (t, .none) ∧ (∀ j, t.key j = if j = k then p else s.key j) ∧
      t = { s with keys := t.keys }) ∧
  (∀ (k : KeyIx) (code : Nat), keymap code = some k ↔ Config.keyCode k = code) ∧
  (∀ j k : KeyIx, Config.keyCode j = Config.keyCode k → j = k) ∧
  ∀ (s : State) (code : Nat) (p : Bool),
    (∀ k, keymap code = some k → operate s (.setPhysicalKey code p) = operate s (.setKey k p)) ∧
    (keymap code = none → operate s (.setPhysicalKey code p) = .next (s, .none))

/-- R113 (43_display.md): both forms of ReadPixel read the cell `x + 64*y`, and change nothing. Arguments
out of range cannot be written down (log entry 12). -/
def Obligations.ReadPixelForms : Prop :=
  ∀ (s : State) (px : Fin 64) (py : Fin 32),
    operate s (.readPixel px py) = .next (s, .pixel (s.pixel px.val py.val)) ∧
    ∀ p : Fin 2048, p.val = px.val + 64 * py.val → operate s (.readPixelIndex p) = operate s (.readPixel px py)

/-- R151 (70_reset_and_hazards.md; the spec's decision D25, log entry 7): before the first Reset every operation but Reset is refused,
on a core built with any font; State.reset is what the first Reset gives the core with the default font (R22). -/
def Obligations.NothingRunsBeforeReset : Prop :=
  deviceOperate defaultFont none .reset = .next (State.reset, .none) ∧ ∀ f : Font,
    (∀ o : Operation, o ≠ .reset → deviceOperate f none o = .refused .neverReset) ∧
    deviceOperate f none .reset = .next (State.resetWith f, .none) ∧
    ∀ (s : State) (o : Operation), deviceOperate f (some s) o = operate s o

/-- R138 (60_exceptions.md): no host operation but Step and Reset touches `pc`, a general register, `I`, the stack or the
draws: nothing outside the program diverts it. -/
def Obligations.HostEventsDivertNothing : Prop :=
  ∀ (s t : State) (o : Operation) (r : Reply), o ≠ .step → o ≠ .reset → operate s o = .next (t, r) →
    t = { s with dt := t.dt, st := t.st, keys := t.keys, mem := t.mem } ∧
    ((∀ image, o ≠ .loadRom image) → t.mem = s.mem)

/-- R20 (10_state.md): no instruction writes a key state. -/
def Obligations.NoInstructionWritesAKey : Prop :=
  ∀ (i : Instr) (s t : State), exec i s = .next t → t.keys = s.keys

/-- R17 (10_state.md): no Step changes a timer except through LD DT,Vx and LD ST,Vx. -/
def Obligations.OnlyTimerLoadsWriteTimers : Prop :=
  ∀ (i : Instr) (s t : State), exec i s = .next t →
    ((∀ x, i ≠ .ldDtVx x) → t.dt = s.dt) ∧ ((∀ x, i ≠ .ldStVx x) → t.st = s.st)

/-- R13, R106: only LD I, ADD I, LD F, LD [I],Vx and LD Vx,[I] write `I`. -/
def Obligations.IndexRegisterWriters : Prop :=
  ∀ (i : Instr) (s t : State), exec i s = .next t →
    (∀ nnn, i ≠ .ldI nnn) → (∀ x, i ≠ .addI x) → (∀ x, i ≠ .ldF x) → (∀ x, i ≠ .storeRegs x) →
    (∀ x, i ≠ .loadRegs x) → t.i = s.i

/-- R30, R35 (20_memory.md): only LD B and LD [I] write memory; every other instruction leaves every byte. -/
def Obligations.MemoryWriters : Prop :=
  ∀ (i : Instr) (s t : State), exec i s = .next t → (∀ x, i ≠ .ldB x) → (∀ x, i ≠ .storeRegs x) →
    t.mem = s.mem ∧ ∀ a, t.readByte a = s.readByte a

/-- R19 (10_state.md): only CLS and DRW write the display. -/
def Obligations.DisplayWriters : Prop :=
  ∀ (i : Instr) (s t : State), exec i s = .next t → i ≠ .cls → (∀ x y n, i ≠ .drw x y n) → t.pix = s.pix

/-- R15, R16 (10_state.md): only CALL and RET move `sp`, by one, and only CALL writes a stack entry, the one at `sp`. -/
def Obligations.StackWriters : Prop :=
  ∀ (i : Instr) (s t : State), exec i s = .next t →
    ((∀ nnn, i ≠ .call nnn) → t.stack = s.stack ∧ t.sp.val ≤ s.sp.val ∧ s.sp.val ≤ t.sp.val + 1) ∧
    (i ≠ .ret → s.sp.val ≤ t.sp.val ∧ t.sp.val ≤ s.sp.val + 1) ∧
    ∀ j : Fin 16, j.val ≠ s.sp.val → t.stack[j] = s.stack[j]

/-- R14 (10_state.md): beyond the advance, `pc` is written by RET, JP, CALL, JP V0 and the six skips only. -/
def Obligations.ProgramCounterWriters : Prop :=
  ∀ (i : Instr) (s t : State), exec i s = .next t →
    match i with
    | .ret => True
    | .jp _ => True
    | .call _ => True
    | .jpV0 _ => True
    | .seImm _ _ => t.pc = s.pc ∨ t.pc = s.pc + 2
    | .sneImm _ _ => t.pc = s.pc ∨ t.pc = s.pc + 2
    | .seReg _ _ => t.pc = s.pc ∨ t.pc = s.pc + 2
    | .sneReg _ _ => t.pc = s.pc ∨ t.pc = s.pc + 2
    | .skp _ => t.pc = s.pc ∨ t.pc = s.pc + 2
    | .sknp _ => t.pc = s.pc ∨ t.pc = s.pc + 2
    | _ => t.pc = s.pc

/-- R12 (10_state.md): VF is written by the six flag instructions; any other instruction writes it only as its own
destination (`x = 15`); no encoding of LD Vx,[I] loads it (R105). -/
def Obligations.FlagRegisterWriters : Prop :=
  ∀ (i : Instr) (s t : State), exec i s = .next t →
    match i with
    | .addReg _ _ => True
    | .subReg _ _ => True
    | .shr _ => True
    | .subnReg _ _ => True
    | .shl _ => True
    | .drw _ _ _ => True
    | .ldImm x _ => x ≠ flagReg → t.getV flagReg = s.getV flagReg
    | .addImm x _ => x ≠ flagReg → t.getV flagReg = s.getV flagReg
    | .ldReg x _ => x ≠ flagReg → t.getV flagReg = s.getV flagReg
    | .orReg x _ => x ≠ flagReg → t.getV flagReg = s.getV flagReg
    | .andReg x _ => x ≠ flagReg → t.getV flagReg = s.getV flagReg
    | .xorReg x _ => x ≠ flagReg → t.getV flagReg = s.getV flagReg
    | .rnd x _ => x ≠ flagReg → t.getV flagReg = s.getV flagReg
    | .ldVxDt x => x ≠ flagReg → t.getV flagReg = s.getV flagReg
    | .ldVxK x => x ≠ flagReg → t.getV flagReg = s.getV flagReg
    | _ => t.getV flagReg = s.getV flagReg

/-- R93, R24: exactly one draw is taken per executed RND and none by any other instruction. The counter is the model's own
(log entry 1). -/
def Obligations.OnlyRandomDraws : Prop :=
  ∀ (i : Instr) (s t : State), exec i s = .next t →
    t.draws = (match i with | .rnd _ _ => s.draws + 1 | _ => s.draws)

/-- R31, R33, R36 (20_memory.md): the fetch reads cells `pc mod 4096` and `(pc + 1) mod 4096`, the first as the high byte. -/
def Obligations.FetchIsMaskedBigEndian : Prop :=
  ∀ s : State,
    s.fetchWord.toNat =
      256 * (Memory.read s.font s.mem (s.pc.toNat % 4096)).toNat + (Memory.read s.font s.mem ((s.pc.toNat + 1) % 4096)).toNat

/-- R40 (20_memory.md): a store into code is seen by the very next fetch. -/
def Obligations.StoreIsSeenByTheNextFetch : Prop :=
  ∀ (x : RegIx) (s t : State), Memory.wf s.font s.mem = true → 2 ≤ x.val → s.pc = s.i → exec (.storeRegs x) s = .next t →
    t.fetchWord = s.getV 0 ++ s.getV 1

/-- S5 (95_test_vectors.md), R70 and R72: CALL, then RET from wherever the subroutine ends, continues after the CALL with the
`sp` from before it; nothing else changes but the stale entry at `sp`, which still holds the return address. -/
def Obligations.ReturnUndoesCall : Prop :=
  ∀ (nnn : Imm12) (s : State) (w : Word), s.sp.val < 16 →
    ∃ t u, exec (.call nnn) s = .next t ∧ exec .ret { t with pc := w } = .next u ∧ u.pc = s.pc ∧ u.sp = s.sp ∧
      (∀ j : Fin 16, u.stack[j] = if j.val = s.sp.val then s.pc else s.stack[j]) ∧ u = { s with stack := u.stack }

/-- R104, R105 ("inverse of above"): what LD [I],Vx stores, LD Vx,[I] from the same `I` loads back, into whatever registers. -/
def Obligations.LoadUndoesStore : Prop :=
  ∀ (x : RegIx) (s : State) (v : Vector Byte 16), Memory.wf s.font s.mem = true →
    ∃ t u, exec (.storeRegs x) s = .next t ∧ exec (.loadRegs x) { t with v := v, i := s.i } = .next u ∧
      (∀ r : RegIx, r < x → u.getV r = s.getV r) ∧ u.i = t.i ∧ u.mem = t.mem

/-- R158 (70_reset_and_hazards.md): at a `JP` to itself every Step leaves the whole state unchanged. -/
def Obligations.SelfJumpIsTheEnd : Prop :=
  ∀ s : State, s.AtSelfJump → step s = .next s

/-- The instruction whose table bits are placed where `step` fetches is the one the next `step` runs (log entry 5). -/
def Obligations.PlacedWordRuns : Prop :=
  ∀ (s : State) (w : Word), Memory.wf s.font s.mem = true →
    (s.withFetchWord 16 w.toNat).fetchWord = w ∧
    step (s.withFetchWord 16 w.toNat) = exec (decode w) (s.withFetchWord 16 w.toNat).advance
end

