-- ==== Sys2Proof/Laws/Decode.lean ====
section
/-! SUPPORT. The fields of a word put together from fields are those fields (spec/30_encoding.md R52), and the two bytes
of a word give it back (spec/20_memory.md R33). -/

namespace Sys2Proof

variable (t x y n : Nibble) (kk : Byte) (nnn : Imm12)

/-- Each bit of a word of four digits. -/
theorem getLsbD_wordXYN (i : Nat) : (wordXYN t x y n).getLsbD i =
    if i < 4 then n.getLsbD i else if i < 8 then y.getLsbD (i - 4) else if i < 12 then x.getLsbD (i - 8)
    else t.getLsbD (i - 12) := by
  show BitVec.getLsbD (w := 4 + 4 + 4 + 4) (t ++ x ++ y ++ n) i = _
  simp only [BitVec.getLsbD_append, Nat.sub_sub]
  split_ifs <;> first | rfl | omega

/-- Each bit of a word of formats XK and X. -/
theorem getLsbD_wordXK (i : Nat) : (wordXK t x kk).getLsbD i =
    if i < 8 then kk.getLsbD i else if i < 12 then x.getLsbD (i - 8) else t.getLsbD (i - 12) := by
  show BitVec.getLsbD (w := 4 + 4 + 8) (t ++ x ++ kk) i = _
  simp only [BitVec.getLsbD_append, Nat.sub_sub]
  split_ifs <;> first | rfl | omega

/-- Each bit of a word of formats A and Z. -/
theorem getLsbD_wordA (i : Nat) : (wordA t nnn).getLsbD i =
    if i < 12 then nnn.getLsbD i else t.getLsbD (i - 12) := by
  show BitVec.getLsbD (w := 4 + 12) (t ++ nnn) i = _
  simp only [BitVec.getLsbD_append]

/-- A field whose every bit is a bit of `b` is `b`. -/
theorem extract_eq {w : Nat} (op : Word) (lo : Nat) (b : BitVec w) (h : ∀ i < w, op.getLsbD (lo + i) = b.getLsbD i) :
    op.extractLsb' lo w = b := by
  apply BitVec.eq_of_getLsbD_eq
  intro i hi
  rw [BitVec.getLsbD_extractLsb', h i hi]
  simp [hi]

@[simp] theorem fieldType_wordXYN : fieldType (wordXYN t x y n) = t :=
  extract_eq _ _ _ fun i hi => by
    rw [getLsbD_wordXYN, if_neg (by omega), if_neg (by omega), if_neg (by omega), Nat.add_sub_cancel_left]

@[simp] theorem fieldX_wordXYN : fieldX (wordXYN t x y n) = x.toFin :=
  congrArg BitVec.toFin (extract_eq _ _ _ fun i hi => by
    rw [getLsbD_wordXYN, if_neg (by omega), if_neg (by omega), if_pos (by omega), Nat.add_sub_cancel_left])

@[simp] theorem fieldY_wordXYN : fieldY (wordXYN t x y n) = y.toFin :=
  congrArg BitVec.toFin (extract_eq _ _ _ fun i hi => by simp [getLsbD_wordXYN]; omega)

@[simp] theorem fieldN_wordXYN : fieldN (wordXYN t x y n) = n.toFin :=
  congrArg BitVec.toFin (extract_eq _ _ _ fun i hi => by simp [getLsbD_wordXYN, hi])

@[simp] theorem fieldType_wordXK : fieldType (wordXK t x kk) = t :=
  extract_eq _ _ _ fun i hi => by simp [getLsbD_wordXK]; omega

@[simp] theorem fieldX_wordXK : fieldX (wordXK t x kk) = x.toFin :=
  congrArg BitVec.toFin (extract_eq _ _ _ fun i hi => by simp [getLsbD_wordXK]; omega)

@[simp] theorem fieldKk_wordXK : fieldKk (wordXK t x kk) = kk :=
  extract_eq _ _ _ fun i hi => by simp [getLsbD_wordXK, hi]

@[simp] theorem fieldType_wordA : fieldType (wordA t nnn) = t :=
  extract_eq _ _ _ fun i hi => by simp [getLsbD_wordA]

@[simp] theorem fieldNnn_wordA : fieldNnn (wordA t nnn) = nnn :=
  extract_eq _ _ _ fun i hi => by simp [getLsbD_wordA, hi]

@[simp] theorem toFin_nibbleOf (r : Fin 16) : (nibbleOf r).toFin = r := rfl

/-- A field under a mask of ones is the field of what the mask leaves (30_encoding.md R56). -/
theorem extract_of_selected {w : Nat} {op m v : Word} (lo : Nat) (h : op &&& m = v)
    (hm : m.extractLsb' lo w = BitVec.allOnes w) : op.extractLsb' lo w = v.extractLsb' lo w := by
  rw [← h, BitVec.extractLsb'_and, hm, BitVec.and_allOnes]

theorem fieldType_of_selected {op m v : Word} (h : op &&& m = v) (hm : m.extractLsb' 12 4 = BitVec.allOnes 4) :
    fieldType op = fieldType v := extract_of_selected 12 h hm

theorem fieldN_of_selected {op m v : Word} (h : op &&& m = v) (hm : m.extractLsb' 0 4 = BitVec.allOnes 4) :
    fieldN op = fieldN v := congrArg BitVec.toFin (extract_of_selected 0 h hm)

theorem fieldKk_of_selected {op m v : Word} (h : op &&& m = v) (hm : m.extractLsb' 0 8 = BitVec.allOnes 8) :
    fieldKk op = fieldKk v := extract_of_selected 0 h hm

/-- A word is the word of its bytes, high byte first (20_memory.md R33). -/
@[simp] theorem wordOfBytes_bytes (w : Word) : wordOfBytes (highByte w) (lowByte w) = w := by
  apply BitVec.eq_of_getLsbD_eq
  intro i hi
  show BitVec.getLsbD (w := 8 + 8) (highByte w ++ lowByte w) i = _
  rw [BitVec.getLsbD_append, highByte, lowByte, BitVec.getLsbD_extractLsb', BitVec.getLsbD_extractLsb']
  split_ifs with h
  · simp [h]
  · rw [show 8 + (i - 8) = i by omega]
    simp
    omega

/-- Two bytes at the head of a sequence are one instruction (30_encoding.md R50). -/
@[simp] theorem decodeBytes_cons (b0 b1 : Byte) (rest : List Byte) :
    decodeBytes (b0 :: b1 :: rest) = .ok (decode (wordOfBytes b0 b1), rest) := rfl

/-- A byte sequence too short for a word is rejected by name. -/
theorem decodeBytes_truncated : decodeBytes [] = .error .truncated ∧ ∀ b, decodeBytes [b] = .error .truncated :=
  ⟨rfl, fun _ => rfl⟩

/-- Decoding the bytes an instruction is stored as is decoding its word. -/
theorem decodeBytes_encodeBytes (i : Instr) (rest : List Byte) :
    decodeBytes (encodeBytes i ++ rest) = .ok (decode (encode i), rest) := by
  simp [encodeBytes]

end Sys2Proof
end

