-- ==== Sys2Proof/Laws/State.lean ====
section
/-! SUPPORT. What each named update of the state does to each field: one lemma per field per update, true by
definition, so that no later proof unfolds a record update; and what a register write does to each register. -/

namespace Sys2Proof.Machine

variable (s : State)

@[simp] theorem State.setV_v (r : RegIx) (b : Byte) : (s.setV r b).v = s.v.set r b := rfl
@[simp] theorem State.setV_i (r : RegIx) (b : Byte) : (s.setV r b).i = s.i := rfl
@[simp] theorem State.setV_pc (r : RegIx) (b : Byte) : (s.setV r b).pc = s.pc := rfl
@[simp] theorem State.setV_sp (r : RegIx) (b : Byte) : (s.setV r b).sp = s.sp := rfl
@[simp] theorem State.setV_stack (r : RegIx) (b : Byte) : (s.setV r b).stack = s.stack := rfl
@[simp] theorem State.setV_dt (r : RegIx) (b : Byte) : (s.setV r b).dt = s.dt := rfl
@[simp] theorem State.setV_st (r : RegIx) (b : Byte) : (s.setV r b).st = s.st := rfl
@[simp] theorem State.setV_mem (r : RegIx) (b : Byte) : (s.setV r b).mem = s.mem := rfl
@[simp] theorem State.setV_pix (r : RegIx) (b : Byte) : (s.setV r b).pix = s.pix := rfl
@[simp] theorem State.setV_keys (r : RegIx) (b : Byte) : (s.setV r b).keys = s.keys := rfl
@[simp] theorem State.setV_status (r : RegIx) (b : Byte) : (s.setV r b).status = s.status := rfl
@[simp] theorem State.setV_font (r : RegIx) (b : Byte) : (s.setV r b).font = s.font := rfl
@[simp] theorem State.setV_draws (r : RegIx) (b : Byte) : (s.setV r b).draws = s.draws := rfl

@[simp] theorem State.setI_v (w : Word) : (s.setI w).v = s.v := rfl
@[simp] theorem State.setI_i (w : Word) : (s.setI w).i = w := rfl
@[simp] theorem State.setI_pc (w : Word) : (s.setI w).pc = s.pc := rfl
@[simp] theorem State.setI_sp (w : Word) : (s.setI w).sp = s.sp := rfl
@[simp] theorem State.setI_stack (w : Word) : (s.setI w).stack = s.stack := rfl
@[simp] theorem State.setI_dt (w : Word) : (s.setI w).dt = s.dt := rfl
@[simp] theorem State.setI_st (w : Word) : (s.setI w).st = s.st := rfl
@[simp] theorem State.setI_mem (w : Word) : (s.setI w).mem = s.mem := rfl
@[simp] theorem State.setI_pix (w : Word) : (s.setI w).pix = s.pix := rfl
@[simp] theorem State.setI_keys (w : Word) : (s.setI w).keys = s.keys := rfl
@[simp] theorem State.setI_status (w : Word) : (s.setI w).status = s.status := rfl
@[simp] theorem State.setI_font (w : Word) : (s.setI w).font = s.font := rfl
@[simp] theorem State.setI_draws (w : Word) : (s.setI w).draws = s.draws := rfl

@[simp] theorem State.setPc_v (w : Word) : (s.setPc w).v = s.v := rfl
@[simp] theorem State.setPc_i (w : Word) : (s.setPc w).i = s.i := rfl
@[simp] theorem State.setPc_pc (w : Word) : (s.setPc w).pc = w := rfl
@[simp] theorem State.setPc_sp (w : Word) : (s.setPc w).sp = s.sp := rfl
@[simp] theorem State.setPc_stack (w : Word) : (s.setPc w).stack = s.stack := rfl
@[simp] theorem State.setPc_dt (w : Word) : (s.setPc w).dt = s.dt := rfl
@[simp] theorem State.setPc_st (w : Word) : (s.setPc w).st = s.st := rfl
@[simp] theorem State.setPc_mem (w : Word) : (s.setPc w).mem = s.mem := rfl
@[simp] theorem State.setPc_pix (w : Word) : (s.setPc w).pix = s.pix := rfl
@[simp] theorem State.setPc_keys (w : Word) : (s.setPc w).keys = s.keys := rfl
@[simp] theorem State.setPc_status (w : Word) : (s.setPc w).status = s.status := rfl
@[simp] theorem State.setPc_font (w : Word) : (s.setPc w).font = s.font := rfl
@[simp] theorem State.setPc_draws (w : Word) : (s.setPc w).draws = s.draws := rfl

@[simp] theorem State.setDt_v (b : Byte) : (s.setDt b).v = s.v := rfl
@[simp] theorem State.setDt_i (b : Byte) : (s.setDt b).i = s.i := rfl
@[simp] theorem State.setDt_pc (b : Byte) : (s.setDt b).pc = s.pc := rfl
@[simp] theorem State.setDt_sp (b : Byte) : (s.setDt b).sp = s.sp := rfl
@[simp] theorem State.setDt_stack (b : Byte) : (s.setDt b).stack = s.stack := rfl
@[simp] theorem State.setDt_dt (b : Byte) : (s.setDt b).dt = b := rfl
@[simp] theorem State.setDt_st (b : Byte) : (s.setDt b).st = s.st := rfl
@[simp] theorem State.setDt_mem (b : Byte) : (s.setDt b).mem = s.mem := rfl
@[simp] theorem State.setDt_pix (b : Byte) : (s.setDt b).pix = s.pix := rfl
@[simp] theorem State.setDt_keys (b : Byte) : (s.setDt b).keys = s.keys := rfl
@[simp] theorem State.setDt_status (b : Byte) : (s.setDt b).status = s.status := rfl
@[simp] theorem State.setDt_font (b : Byte) : (s.setDt b).font = s.font := rfl
@[simp] theorem State.setDt_draws (b : Byte) : (s.setDt b).draws = s.draws := rfl

@[simp] theorem State.setSt_v (b : Byte) : (s.setSt b).v = s.v := rfl
@[simp] theorem State.setSt_i (b : Byte) : (s.setSt b).i = s.i := rfl
@[simp] theorem State.setSt_pc (b : Byte) : (s.setSt b).pc = s.pc := rfl
@[simp] theorem State.setSt_sp (b : Byte) : (s.setSt b).sp = s.sp := rfl
@[simp] theorem State.setSt_stack (b : Byte) : (s.setSt b).stack = s.stack := rfl
@[simp] theorem State.setSt_dt (b : Byte) : (s.setSt b).dt = s.dt := rfl
@[simp] theorem State.setSt_st (b : Byte) : (s.setSt b).st = b := rfl
@[simp] theorem State.setSt_mem (b : Byte) : (s.setSt b).mem = s.mem := rfl
@[simp] theorem State.setSt_pix (b : Byte) : (s.setSt b).pix = s.pix := rfl
@[simp] theorem State.setSt_keys (b : Byte) : (s.setSt b).keys = s.keys := rfl
@[simp] theorem State.setSt_status (b : Byte) : (s.setSt b).status = s.status := rfl
@[simp] theorem State.setSt_font (b : Byte) : (s.setSt b).font = s.font := rfl
@[simp] theorem State.setSt_draws (b : Byte) : (s.setSt b).draws = s.draws := rfl

@[simp] theorem State.advance_v : s.advance.v = s.v := rfl
@[simp] theorem State.advance_i : s.advance.i = s.i := rfl
@[simp] theorem State.advance_pc : s.advance.pc = s.pc + 2 := rfl
@[simp] theorem State.advance_sp : s.advance.sp = s.sp := rfl
@[simp] theorem State.advance_stack : s.advance.stack = s.stack := rfl
@[simp] theorem State.advance_dt : s.advance.dt = s.dt := rfl
@[simp] theorem State.advance_st : s.advance.st = s.st := rfl
@[simp] theorem State.advance_mem : s.advance.mem = s.mem := rfl
@[simp] theorem State.advance_pix : s.advance.pix = s.pix := rfl
@[simp] theorem State.advance_keys : s.advance.keys = s.keys := rfl
@[simp] theorem State.advance_status : s.advance.status = s.status := rfl
@[simp] theorem State.advance_font : s.advance.font = s.font := rfl
@[simp] theorem State.advance_draws : s.advance.draws = s.draws := rfl

@[simp] theorem State.writeByte_v (a : Nat) (b : Byte) : (s.writeByte a b).v = s.v := rfl
@[simp] theorem State.writeByte_i (a : Nat) (b : Byte) : (s.writeByte a b).i = s.i := rfl
@[simp] theorem State.writeByte_pc (a : Nat) (b : Byte) : (s.writeByte a b).pc = s.pc := rfl
@[simp] theorem State.writeByte_sp (a : Nat) (b : Byte) : (s.writeByte a b).sp = s.sp := rfl
@[simp] theorem State.writeByte_stack (a : Nat) (b : Byte) : (s.writeByte a b).stack = s.stack := rfl
@[simp] theorem State.writeByte_dt (a : Nat) (b : Byte) : (s.writeByte a b).dt = s.dt := rfl
@[simp] theorem State.writeByte_st (a : Nat) (b : Byte) : (s.writeByte a b).st = s.st := rfl
@[simp] theorem State.writeByte_mem (a : Nat) (b : Byte) : (s.writeByte a b).mem = Memory.write s.font s.mem (cellOf a) b := rfl
@[simp] theorem State.writeByte_pix (a : Nat) (b : Byte) : (s.writeByte a b).pix = s.pix := rfl
@[simp] theorem State.writeByte_keys (a : Nat) (b : Byte) : (s.writeByte a b).keys = s.keys := rfl
@[simp] theorem State.writeByte_status (a : Nat) (b : Byte) : (s.writeByte a b).status = s.status := rfl
@[simp] theorem State.writeByte_font (a : Nat) (b : Byte) : (s.writeByte a b).font = s.font := rfl
@[simp] theorem State.writeByte_draws (a : Nat) (b : Byte) : (s.writeByte a b).draws = s.draws := rfl

@[simp] theorem State.togglePixel_v (px py : Nat) : (s.togglePixel px py).v = s.v := rfl
@[simp] theorem State.togglePixel_i (px py : Nat) : (s.togglePixel px py).i = s.i := rfl
@[simp] theorem State.togglePixel_pc (px py : Nat) : (s.togglePixel px py).pc = s.pc := rfl
@[simp] theorem State.togglePixel_sp (px py : Nat) : (s.togglePixel px py).sp = s.sp := rfl
@[simp] theorem State.togglePixel_stack (px py : Nat) : (s.togglePixel px py).stack = s.stack := rfl
@[simp] theorem State.togglePixel_dt (px py : Nat) : (s.togglePixel px py).dt = s.dt := rfl
@[simp] theorem State.togglePixel_st (px py : Nat) : (s.togglePixel px py).st = s.st := rfl
@[simp] theorem State.togglePixel_mem (px py : Nat) : (s.togglePixel px py).mem = s.mem := rfl
@[simp] theorem State.togglePixel_pix (px py : Nat) : (s.togglePixel px py).pix = s.pix.set (Fin.ofNat 32 py) (s.pix[Fin.ofNat 32 py] ^^^ (1#64 <<< (px % 64))) := rfl
@[simp] theorem State.togglePixel_keys (px py : Nat) : (s.togglePixel px py).keys = s.keys := rfl
@[simp] theorem State.togglePixel_status (px py : Nat) : (s.togglePixel px py).status = s.status := rfl
@[simp] theorem State.togglePixel_font (px py : Nat) : (s.togglePixel px py).font = s.font := rfl
@[simp] theorem State.togglePixel_draws (px py : Nat) : (s.togglePixel px py).draws = s.draws := rfl

@[simp] theorem State.clearPixels_v : s.clearPixels.v = s.v := rfl
@[simp] theorem State.clearPixels_i : s.clearPixels.i = s.i := rfl
@[simp] theorem State.clearPixels_pc : s.clearPixels.pc = s.pc := rfl
@[simp] theorem State.clearPixels_sp : s.clearPixels.sp = s.sp := rfl
@[simp] theorem State.clearPixels_stack : s.clearPixels.stack = s.stack := rfl
@[simp] theorem State.clearPixels_dt : s.clearPixels.dt = s.dt := rfl
@[simp] theorem State.clearPixels_st : s.clearPixels.st = s.st := rfl
@[simp] theorem State.clearPixels_mem : s.clearPixels.mem = s.mem := rfl
@[simp] theorem State.clearPixels_pix : s.clearPixels.pix = Vector.replicate 32 0 := rfl
@[simp] theorem State.clearPixels_keys : s.clearPixels.keys = s.keys := rfl
@[simp] theorem State.clearPixels_status : s.clearPixels.status = s.status := rfl
@[simp] theorem State.clearPixels_font : s.clearPixels.font = s.font := rfl
@[simp] theorem State.clearPixels_draws : s.clearPixels.draws = s.draws := rfl

@[simp] theorem State.setKey_v (k : KeyIx) (p : Bool) : (s.setKey k p).v = s.v := rfl
@[simp] theorem State.setKey_i (k : KeyIx) (p : Bool) : (s.setKey k p).i = s.i := rfl
@[simp] theorem State.setKey_pc (k : KeyIx) (p : Bool) : (s.setKey k p).pc = s.pc := rfl
@[simp] theorem State.setKey_sp (k : KeyIx) (p : Bool) : (s.setKey k p).sp = s.sp := rfl
@[simp] theorem State.setKey_stack (k : KeyIx) (p : Bool) : (s.setKey k p).stack = s.stack := rfl
@[simp] theorem State.setKey_dt (k : KeyIx) (p : Bool) : (s.setKey k p).dt = s.dt := rfl
@[simp] theorem State.setKey_st (k : KeyIx) (p : Bool) : (s.setKey k p).st = s.st := rfl
@[simp] theorem State.setKey_mem (k : KeyIx) (p : Bool) : (s.setKey k p).mem = s.mem := rfl
@[simp] theorem State.setKey_pix (k : KeyIx) (p : Bool) : (s.setKey k p).pix = s.pix := rfl
@[simp] theorem State.setKey_keys (k : KeyIx) (p : Bool) : (s.setKey k p).keys = s.keys.set k p := rfl
@[simp] theorem State.setKey_status (k : KeyIx) (p : Bool) : (s.setKey k p).status = s.status := rfl
@[simp] theorem State.setKey_font (k : KeyIx) (p : Bool) : (s.setKey k p).font = s.font := rfl
@[simp] theorem State.setKey_draws (k : KeyIx) (p : Bool) : (s.setKey k p).draws = s.draws := rfl

@[simp] theorem State.raise_v (c : Fault) : (s.raise c).v = s.v := rfl
@[simp] theorem State.raise_i (c : Fault) : (s.raise c).i = s.i := rfl
@[simp] theorem State.raise_pc (c : Fault) : (s.raise c).pc = s.pc := rfl
@[simp] theorem State.raise_sp (c : Fault) : (s.raise c).sp = s.sp := rfl
@[simp] theorem State.raise_stack (c : Fault) : (s.raise c).stack = s.stack := rfl
@[simp] theorem State.raise_dt (c : Fault) : (s.raise c).dt = s.dt := rfl
@[simp] theorem State.raise_st (c : Fault) : (s.raise c).st = s.st := rfl
@[simp] theorem State.raise_mem (c : Fault) : (s.raise c).mem = s.mem := rfl
@[simp] theorem State.raise_pix (c : Fault) : (s.raise c).pix = s.pix := rfl
@[simp] theorem State.raise_keys (c : Fault) : (s.raise c).keys = s.keys := rfl
@[simp] theorem State.raise_status (c : Fault) : (s.raise c).status = .faulted c := rfl
@[simp] theorem State.raise_font (c : Fault) : (s.raise c).font = s.font := rfl
@[simp] theorem State.raise_draws (c : Fault) : (s.raise c).draws = s.draws := rfl

@[simp] theorem State.tickTimers_v : s.tickTimers.v = s.v := rfl
@[simp] theorem State.tickTimers_i : s.tickTimers.i = s.i := rfl
@[simp] theorem State.tickTimers_pc : s.tickTimers.pc = s.pc := rfl
@[simp] theorem State.tickTimers_sp : s.tickTimers.sp = s.sp := rfl
@[simp] theorem State.tickTimers_stack : s.tickTimers.stack = s.stack := rfl
@[simp] theorem State.tickTimers_dt : s.tickTimers.dt = countDown s.dt := rfl
@[simp] theorem State.tickTimers_st : s.tickTimers.st = countDown s.st := rfl
@[simp] theorem State.tickTimers_mem : s.tickTimers.mem = s.mem := rfl
@[simp] theorem State.tickTimers_pix : s.tickTimers.pix = s.pix := rfl
@[simp] theorem State.tickTimers_keys : s.tickTimers.keys = s.keys := rfl
@[simp] theorem State.tickTimers_status : s.tickTimers.status = s.status := rfl
@[simp] theorem State.tickTimers_font : s.tickTimers.font = s.font := rfl
@[simp] theorem State.tickTimers_draws : s.tickTimers.draws = s.draws := rfl

@[simp] theorem State.setFlagThenV_v (f : Byte) (r : RegIx) (b : Byte) : (s.setFlagThenV f r b).v = (s.v.set flagReg f).set r b := rfl
@[simp] theorem State.setFlagThenV_i (f : Byte) (r : RegIx) (b : Byte) : (s.setFlagThenV f r b).i = s.i := rfl
@[simp] theorem State.setFlagThenV_pc (f : Byte) (r : RegIx) (b : Byte) : (s.setFlagThenV f r b).pc = s.pc := rfl
@[simp] theorem State.setFlagThenV_sp (f : Byte) (r : RegIx) (b : Byte) : (s.setFlagThenV f r b).sp = s.sp := rfl
@[simp] theorem State.setFlagThenV_stack (f : Byte) (r : RegIx) (b : Byte) : (s.setFlagThenV f r b).stack = s.stack := rfl
@[simp] theorem State.setFlagThenV_dt (f : Byte) (r : RegIx) (b : Byte) : (s.setFlagThenV f r b).dt = s.dt := rfl
@[simp] theorem State.setFlagThenV_st (f : Byte) (r : RegIx) (b : Byte) : (s.setFlagThenV f r b).st = s.st := rfl
@[simp] theorem State.setFlagThenV_mem (f : Byte) (r : RegIx) (b : Byte) : (s.setFlagThenV f r b).mem = s.mem := rfl
@[simp] theorem State.setFlagThenV_pix (f : Byte) (r : RegIx) (b : Byte) : (s.setFlagThenV f r b).pix = s.pix := rfl
@[simp] theorem State.setFlagThenV_keys (f : Byte) (r : RegIx) (b : Byte) : (s.setFlagThenV f r b).keys = s.keys := rfl
@[simp] theorem State.setFlagThenV_status (f : Byte) (r : RegIx) (b : Byte) : (s.setFlagThenV f r b).status = s.status := rfl
@[simp] theorem State.setFlagThenV_font (f : Byte) (r : RegIx) (b : Byte) : (s.setFlagThenV f r b).font = s.font := rfl
@[simp] theorem State.setFlagThenV_draws (f : Byte) (r : RegIx) (b : Byte) : (s.setFlagThenV f r b).draws = s.draws := rfl

theorem State.getV_setV_same (r : RegIx) (b : Byte) : (s.setV r b).getV r = b := by
  simp [State.getV]

theorem State.getV_setV_other (r q : RegIx) (b : Byte) (h : q ≠ r) : (s.setV r b).getV q = s.getV q := by
  have h' : r.val ≠ q.val := fun e => h (Fin.ext e.symm)
  simp [State.getV, h']

/-- A register write, read back at any register. -/
@[simp] theorem State.getV_setV (r q : RegIx) (b : Byte) :
    (s.setV r b).getV q = if q = r then b else s.getV q := by
  by_cases h : q = r
  · subst h; simp [State.getV_setV_same]
  · simp [h, State.getV_setV_other]

/-- Flag first, result second, read back at any register (41_arith_logic.md R80). -/
@[simp] theorem State.getV_setFlagThenV (f : Byte) (r q : RegIx) (b : Byte) :
    (s.setFlagThenV f r b).getV q = if q = r then b else if q = flagReg then f else s.getV q := by
  simp [State.setFlagThenV]

/-- Reading a register depends on the register file only. -/
theorem State.getV_congr (s t : State) (h : t.v = s.v) (q : RegIx) : t.getV q = s.getV q := by
  simp [State.getV, h]

/-- A register file is determined by its 16 registers. -/
theorem State.v_ext (s t : State) (h : ∀ q, t.getV q = s.getV q) : t.v = s.v := by
  apply Vector.ext
  intro k hk
  exact h ⟨k, hk⟩

/-- A key write, read back at any key. -/
@[simp] theorem State.key_setKey (k q : KeyIx) (p : Bool) :
    (s.setKey k p).key q = if q = k then p else s.key q := by
  by_cases h : q = k
  · subst h; simp [State.key]
  · have h' : k.val ≠ q.val := fun e => h (Fin.ext e.symm)
    simp [State.key, h, h']

/-- A skip advances `pc` once more or leaves it, and touches nothing else (40_control_flow.md R77). -/
theorem State.skipIf_eq (c : Bool) : s.skipIf c = { s with pc := if c then s.pc + 2 else s.pc } := by
  cases c <;> rfl

end Sys2Proof.Machine
end

