-- ==== Sys2Proof/Laws/Memory.lean ====
section
/-! SUPPORT. The laws of main memory: a cell reads back what was written to it and no other cell changes, and every
memory operation keeps the canonical form (spec/20_memory.md R31, R37). -/

namespace Sys2Proof.Machine

variable {f : Font}

/-- The canonical form from `lo` on, of a listing with a first cell. -/
theorem Memory.wfFrom_cons (lo b : Nat) (w : Byte) (m : Memory) :
    Memory.wfFrom f lo ((b, w) :: m) = true ↔
      lo ≤ b ∧ b < Config.memSize ∧ w ≠ resetByte f b ∧ Memory.wfFrom f (b + 1) m = true := by
  simp [Memory.wfFrom, and_assoc]

theorem Memory.wfFrom_mono {lo lo' : Nat} {m : Memory} (h : Memory.wfFrom f lo m = true) (hl : lo' ≤ lo) :
    Memory.wfFrom f lo' m = true := by
  cases m with
  | nil => rfl
  | cons c m =>
    obtain ⟨b, w⟩ := c
    rw [Memory.wfFrom_cons] at h ⊢
    exact ⟨hl.trans h.1, h.2⟩

/-- A cell below every listed address holds its reset contents. -/
theorem Memory.read_below {lo a : Nat} {m : Memory} (h : Memory.wfFrom f lo m = true) (ha : a < lo) :
    Memory.read f m a = resetByte f a := by
  cases m with
  | nil => rfl
  | cons c m =>
    obtain ⟨b, w⟩ := c
    have hb := ((Memory.wfFrom_cons lo b w m).mp h).1
    simp [Memory.read, show a ≠ b by omega, show a < b by omega]

theorem Memory.read_consCell {a c : Nat} {w : Byte} {m : Memory} (h : Memory.wfFrom f (a + 1) m = true) (hc : a ≤ c) :
    Memory.read f (Memory.consCell f a w m) c = if c = a then w else Memory.read f m c := by
  unfold Memory.consCell
  split
  · rename_i hw
    by_cases e : c = a
    · subst e; rw [Memory.read_below h (Nat.lt_succ_self _), hw, if_pos rfl]
    · rw [if_neg e]
  · by_cases e : c = a
    · simp [Memory.read, e]
    · simp [Memory.read, e, show ¬ c < a by omega]

theorem Memory.read_consCell_below {a c : Nat} {w : Byte} {m : Memory} (h : Memory.wfFrom f (a + 1) m = true) (hc : c < a) :
    Memory.read f (Memory.consCell f a w m) c = resetByte f c := by
  unfold Memory.consCell
  split
  · exact Memory.read_below h (by omega)
  · simp [Memory.read, show c ≠ a by omega, hc]

/-- READ AFTER WRITE: the written cell reads as the byte written, every other cell as before. -/
theorem Memory.read_write {m : Memory} : ∀ {lo : Nat}, Memory.wfFrom f lo m = true → ∀ (a c : Nat) (w : Byte),
    Memory.read f (Memory.write f m a w) c = if c = a then w else Memory.read f m c := by
  induction m with
  | nil =>
    intro lo _ a c w
    simp only [Memory.write, Memory.consCell]
    split
    · rename_i hw
      by_cases e : c = a
      · subst e; simp [Memory.read, hw]
      · simp [Memory.read, e]
    · by_cases e : c = a <;> simp [Memory.read, e]
  | cons cell m ih =>
    obtain ⟨b, u⟩ := cell
    intro lo h a c w
    have hm := ((Memory.wfFrom_cons lo b u m).mp h).2.2.2
    simp only [Memory.write]
    split
    · rename_i hab
      subst hab
      rcases Nat.lt_or_ge c a with hc | hc
      · simp [Memory.read_consCell_below hm hc, Memory.read, show c ≠ a by omega, hc]
      · rw [Memory.read_consCell hm hc]
        by_cases e : c = a
        · simp [e]
        · simp [e, Memory.read, show ¬ c < a by omega]
    · rename_i hab
      split
      · rename_i hlt
        have hf : Memory.wfFrom f (a + 1) ((b, u) :: m) = true := by
          rw [Memory.wfFrom_cons] at h ⊢
          exact ⟨hlt, h.2⟩
        rcases Nat.lt_or_ge c a with hc | hc
        · rw [Memory.read_consCell_below hf hc, if_neg (by omega), Memory.read_below hf (by omega)]
        · exact Memory.read_consCell hf hc
      · rename_i hlt
        by_cases e : c = b
        · subst e
          simp [Memory.read, show c ≠ a from fun x => hab x.symm]
        · by_cases hcb : c < b
          · simp [Memory.read, e, hcb, show c ≠ a by omega]
          · simp only [Memory.read, e, hcb, if_false]
            exact ih hm a c w

theorem Memory.consCell_wf {lo a : Nat} {w : Byte} {m : Memory} (h : Memory.wfFrom f (a + 1) m = true) (hl : lo ≤ a)
    (ha : a < Config.memSize) : Memory.wfFrom f lo (Memory.consCell f a w m) = true := by
  unfold Memory.consCell
  split
  · exact Memory.wfFrom_mono h (by omega)
  · rename_i hw
    exact (Memory.wfFrom_cons lo a w m).mpr ⟨hl, ha, hw, h⟩

theorem Memory.write_wfFrom {m : Memory} : ∀ {lo a : Nat} (w : Byte), Memory.wfFrom f lo m = true → lo ≤ a →
    a < Config.memSize → Memory.wfFrom f lo (Memory.write f m a w) = true := by
  induction m with
  | nil => intro lo a w _ hl ha; exact Memory.consCell_wf rfl hl ha
  | cons cell m ih =>
    obtain ⟨b, u⟩ := cell
    intro lo a w h hl ha
    have hc := (Memory.wfFrom_cons lo b u m).mp h
    simp only [Memory.write]
    split
    · rename_i hab
      subst hab
      exact Memory.consCell_wf hc.2.2.2 hl ha
    · rename_i hab
      split
      · rename_i hlt
        exact Memory.consCell_wf ((Memory.wfFrom_cons _ b u m).mpr ⟨hlt, hc.2⟩) hl ha
      · exact (Memory.wfFrom_cons lo b u _).mpr ⟨hc.1, hc.2.1, hc.2.2.1, ih w hc.2.2.2 (by omega) ha⟩

/-- A write keeps the canonical form. -/
theorem Memory.write_wf {m : Memory} (h : Memory.wf f m = true) {a : Nat} (ha : a < Config.memSize) (w : Byte) :
    Memory.wf f (Memory.write f m a w) = true :=
  Memory.write_wfFrom w h (Nat.zero_le _) ha

/-- Reset memory is in canonical form, whatever the font. -/
theorem Memory.reset_wf (f : Font) : Memory.wf f (State.resetWith f).mem = true := rfl

theorem cellOf_lt (a : Nat) : cellOf a < Config.memSize := Nat.mod_lt _ (by decide)

variable (s : State)

theorem State.writeByte_wf (h : Memory.wf s.font s.mem = true) (a : Nat) (b : Byte) :
    Memory.wf (s.writeByte a b).font (s.writeByte a b).mem = true := Memory.write_wf h (cellOf_lt a) b

/-- One byte written, read back at any address (20_memory.md R31). -/
theorem State.readByte_writeByte (h : Memory.wf s.font s.mem = true) (a c : Nat) (b : Byte) :
    (s.writeByte a b).readByte c = if cellOf c = cellOf a then b else s.readByte c :=
  Memory.read_write h (cellOf a) (cellOf c) b

/-- Reading memory depends on memory, and on the instance's font, only. -/
theorem State.readByte_congr (s t : State) (hf : t.font = s.font) (h : t.mem = s.mem) (a : Nat) :
    t.readByte a = s.readByte a := by
  simp [State.readByte, hf, h]

/-- After `Reset` cell `a` holds `FONT[a]`, or 0 above the font, whatever the font (10_state.md R23). -/
theorem State.readByte_resetWith (f : Font) (a : Nat) : (State.resetWith f).readByte a = f.bytes.getD (cellOf a) 0 := rfl

theorem State.readByte_mod (a : Nat) : s.readByte (a % 4096) = s.readByte a := by
  simp [State.readByte, cellOf, Config.memSize]

/-- `writeBytes` changes memory and nothing else. -/
theorem State.writeBytes_eq (bs : List Byte) : ∀ (s : State) (a : Nat),
    s.writeBytes a bs = { s with mem := (s.writeBytes a bs).mem } := by
  induction bs with
  | nil => intro s a; rfl
  | cons b bs ih => intro s a; exact ih (s.writeByte a b) (a + 1)

theorem State.writeBytes_font (bs : List Byte) (s : State) (a : Nat) : (s.writeBytes a bs).font = s.font := by
  rw [State.writeBytes_eq]

/-- What `writeBytes` makes of memory depends on memory, and on the instance's font, only. -/
theorem State.writeBytes_mem_congr (bs : List Byte) : ∀ (s t : State) (a : Nat), t.font = s.font → t.mem = s.mem →
    (t.writeBytes a bs).mem = (s.writeBytes a bs).mem := by
  induction bs with
  | nil => intro s t a _ h; exact h
  | cons b bs ih => intro s t a hf h; exact ih _ _ _ hf (by simp [hf, h])

theorem State.writeBytes_wf (bs : List Byte) : ∀ (s : State) (a : Nat), Memory.wf s.font s.mem = true →
    Memory.wf (s.writeBytes a bs).font (s.writeBytes a bs).mem = true := by
  induction bs with
  | nil => intro s a h; exact h
  | cons b bs ih => intro s a h; exact ih _ _ (s.writeByte_wf h a b)

/-- A cell that no written address selects keeps its byte. -/
theorem State.readByte_writeBytes_other (bs : List Byte) : ∀ (s : State) (a c : Nat), Memory.wf s.font s.mem = true →
    ¬ Touches a bs.length c → (s.writeBytes a bs).readByte c = s.readByte c := by
  induction bs with
  | nil => intro s a c _ _; rfl
  | cons b bs ih =>
    intro s a c h hn
    have h1 : ¬ Touches (a + 1) bs.length c := by
      rintro ⟨k, hk, e⟩
      exact hn ⟨k + 1, by simpa using hk, by rw [← e]; congr 1; omega⟩
    have h2 : cellOf c ≠ cellOf a := fun e => hn ⟨0, by simp, by simpa using e.symm⟩
    rw [State.writeBytes, ih _ _ _ (s.writeByte_wf h a b) h1, State.readByte_writeByte s h, if_neg h2]

/-- The `k`-th address written holds the `k`-th byte, when no more than 4096 bytes are written. -/
theorem State.readByte_writeBytes_at (bs : List Byte) : ∀ (s : State) (a k : Nat), Memory.wf s.font s.mem = true →
    bs.length ≤ Config.memSize → (hk : k < bs.length) → (s.writeBytes a bs).readByte (a + k) = bs[k] := by
  induction bs with
  | nil => intro s a k _ _ hk; simp at hk
  | cons b bs ih =>
    intro s a k h hl hk
    have hl' : bs.length < 4096 := by simpa [Config.memSize] using hl
    have hw := s.writeByte_wf h a b
    cases k with
    | zero =>
      have hn : ¬ Touches (a + 1) bs.length a := by
        rintro ⟨k, hk, e⟩
        simp only [cellOf, Config.memSize] at e
        omega
      show ((s.writeByte a b).writeBytes (a + 1) bs).readByte a = b
      rw [State.readByte_writeBytes_other bs _ _ _ hw hn, State.readByte_writeByte s h, if_pos rfl]
    | succ k =>
      have := ih (s.writeByte a b) (a + 1) k hw (by simp [Config.memSize]; omega) (by simpa using hk)
      rw [State.writeBytes, show a + (k + 1) = a + 1 + k by omega, this]
      rfl

end Sys2Proof.Machine
end

