-- ==== Sys2Proof/Laws/Ops.lean ====
section
/-! SUPPORT. One lemma for each shared operation that says everything it can do: the stack (spec/40_control_flow.md R70,
R72), loading registers from memory (spec/42_index_memory.md R105), display cells and the drawing of a sprite
(spec/43_display.md R111), the key scan (spec/44_timer_keypad.md R125). -/

namespace Sys2Proof.Machine

variable (s : State)

/-- Pushing fails exactly at `sp = 16`, and then pushes nothing (40_control_flow.md R72). -/
theorem State.push?_none (w : Word) : s.push? w = none ↔ s.sp.val = 16 := by
  unfold State.push?
  split
  · rename_i h; simp; omega
  · rename_i h; simp; omega

/-- A push below the top writes one entry and counts `sp` up. -/
theorem State.push?_some (w : Word) (h : s.sp.val < 16) :
    s.push? w = some { s with stack := s.stack.set s.sp.val w, sp := ⟨s.sp.val + 1, Nat.succ_lt_succ h⟩ } := by
  simp [State.push?, h]

/-- Popping fails exactly at `sp = 0` (40_control_flow.md R70). -/
theorem State.pop?_none : s.pop? = none ↔ s.sp.val = 0 := by
  unfold State.pop?
  split
  · rename_i h; simp [h]
  · rename_i k hk h; simp [h]

/-- A pop above the bottom reads the entry below `sp` and counts `sp` down; the entry stays. -/
theorem State.pop?_some {k : Nat} (h : s.sp.val = k + 1) (hk : k < 16) :
    s.pop? = some (s.stack[k], { s with sp := ⟨k, Nat.lt_succ_of_lt hk⟩ }) := by
  have e : s.sp = ⟨k + 1, Nat.succ_lt_succ hk⟩ := Fin.ext h
  unfold State.pop?
  rw [e]

/-- `loadFrom` changes registers and nothing else. -/
theorem State.loadFrom_eq (a n : Nat) : s.loadFrom a n = { s with v := (s.loadFrom a n).v } := by
  induction n with
  | zero => rfl
  | succ n ih =>
    show (s.loadFrom a n).setV (Fin.ofNat 16 n) (s.readByte (a + n)) = _
    rw [ih]
    rfl

/-- The first `n` registers hold the `n` bytes from `a` on, the others what they held (42_index_memory.md R105). -/
theorem State.getV_loadFrom (a n : Nat) (hn : n ≤ 16) (q : RegIx) :
    (s.loadFrom a n).getV q = if q.val < n then s.readByte (a + q.val) else s.getV q := by
  induction n with
  | zero => simp [State.loadFrom]
  | succ n ih =>
    rw [State.loadFrom, State.getV_setV, ih (by omega)]
    by_cases e : q.val = n
    · have hq : q = Fin.ofNat 16 n := Fin.ext (by simp [Fin.ofNat, e, Nat.mod_eq_of_lt (show n < 16 by omega)])
      rw [if_pos hq, if_pos (by omega), e]
    · have hq : q ≠ Fin.ofNat 16 n := by
        intro h
        apply e
        rw [h]
        simp [Fin.ofNat, Nat.mod_eq_of_lt (show n < 16 by omega)]
      rw [if_neg hq]
      by_cases h1 : q.val < n
      · rw [if_pos h1, if_pos (by omega)]
      · rw [if_neg h1, if_neg (by omega)]

/-- The list of the first `n` registers. -/
theorem State.firstRegs_length (n : Nat) (hn : n ≤ 16) : (s.firstRegs n).length = n := by
  simp [State.firstRegs, hn]

theorem State.firstRegs_getElem (n k : Nat) (hk : k < (s.firstRegs n).length) (h16 : k < 16) :
    (s.firstRegs n)[k] = s.getV ⟨k, h16⟩ := by
  simp [State.firstRegs, State.getV]

/-- Toggling one display cell, read back at any cell: coordinates are wrapped (43_display.md R111). -/
theorem State.pixel_togglePixel (px py qx qy : Nat) :
    (s.togglePixel px py).pixel qx qy =
      if qx % 64 = px % 64 ∧ qy % 32 = py % 32 then !s.pixel qx qy else s.pixel qx qy := by
  have hx : qx % 64 < 64 := Nat.mod_lt _ (by decide)
  by_cases hy : qy % 32 = py % 32
  · have e : Fin.ofNat 32 qy = Fin.ofNat 32 py := Fin.ext hy
    have hget : (s.togglePixel px py).pixel qx qy
        = (s.pix[Fin.ofNat 32 py] ^^^ (1#64 <<< (px % 64))).getLsbD (qx % 64) := by
      simp [State.pixel, State.togglePixel, hy]
    have hold : s.pixel qx qy = (s.pix[Fin.ofNat 32 py]).getLsbD (qx % 64) := by
      simp only [State.pixel, e]
    rw [hget, hold, BitVec.getLsbD_xor, BitVec.getLsbD_shiftLeft]
    by_cases hc : qx % 64 = px % 64
    · simp [hc, hy, Nat.mod_lt]
    · have : (1#64).getLsbD (qx % 64 - px % 64) = true → qx % 64 ≤ px % 64 := by
        intro h
        have := (BitVec.getLsbD_one (w := 64) (i := qx % 64 - px % 64)).symm.trans h
        simp at this
        omega
      by_cases hlt : qx % 64 < px % 64
      · simp [hc, hlt]
      · have : (1#64).getLsbD (qx % 64 - px % 64) = false := by
          rw [Bool.eq_false_iff]
          intro h
          have := this h
          omega
        simp [hc, this]
  · have e : (py % 32) ≠ (qy % 32) := fun h => hy h.symm
    simp [State.pixel, State.togglePixel, hy, e]

/-- A register write leaves the display, and a toggle leaves the registers. -/
@[simp] theorem State.pixel_setV (r : RegIx) (b : Byte) (px py : Nat) : (s.setV r b).pixel px py = s.pixel px py := rfl
@[simp] theorem State.getV_togglePixel (px py : Nat) (q : RegIx) : (s.togglePixel px py).getV q = s.getV q := rfl
@[simp] theorem State.readByte_setV (r : RegIx) (b : Byte) (a : Nat) : (s.setV r b).readByte a = s.readByte a := rfl

/-- A cleared display reads 0 everywhere (43_display.md R110). -/
@[simp] theorem State.pixel_clearPixels (px py : Nat) : s.clearPixels.pixel px py = false := by
  simp [State.pixel, State.clearPixels]

/-- `drawPixel` changes VF and the display and nothing else. -/
theorem State.drawPixel_eq (px py : Nat) :
    s.drawPixel px py = { s with v := (s.drawPixel px py).v, pix := (s.drawPixel px py).pix } := by
  unfold State.drawPixel
  split <;> rfl

theorem State.pixel_drawPixel (px py qx qy : Nat) :
    (s.drawPixel px py).pixel qx qy =
      if qx % 64 = px % 64 ∧ qy % 32 = py % 32 then !s.pixel qx qy else s.pixel qx qy := by
  unfold State.drawPixel
  split <;> simp [State.pixel_togglePixel]

theorem State.getV_drawPixel (px py : Nat) (q : RegIx) :
    (s.drawPixel px py).getV q = if q = flagReg ∧ s.pixel px py = true then 1 else s.getV q := by
  unfold State.drawPixel
  by_cases h : s.pixel px py = true <;> simp [h]

/-- A state that differs from `s` in registers and display cells only, put in the form the frames use. -/
theorem State.eq_of_v_pix {s t : State} (h : ∃ v p, t = { s with v := v, pix := p }) :
    t = { s with v := t.v, pix := t.pix } := by
  obtain ⟨v, p, rfl⟩ := h
  rfl

theorem State.drawCols_frame (b : Byte) (vx py n : Nat) : ∃ v p, s.drawCols b vx py n = { s with v := v, pix := p } := by
  induction n with
  | zero => exact ⟨s.v, s.pix, rfl⟩
  | succ n ih =>
    obtain ⟨v, p, e⟩ := ih
    simp only [State.drawCols, e]
    split
    · exact ⟨_, _, State.drawPixel_eq _ _ _⟩
    · exact ⟨v, p, rfl⟩

/-- Drawing columns changes VF and the display and nothing else. -/
theorem State.drawCols_eq (b : Byte) (vx py n : Nat) :
    s.drawCols b vx py n = { s with v := (s.drawCols b vx py n).v, pix := (s.drawCols b vx py n).pix } :=
  State.eq_of_v_pix (s.drawCols_frame b vx py n)

theorem State.drawRows_frame (base vx vy n : Nat) :
    ∃ v p, s.drawRows base vx vy n = { s with v := v, pix := p } := by
  induction n with
  | zero => exact ⟨s.v, s.pix, rfl⟩
  | succ n ih =>
    obtain ⟨v, p, e⟩ := ih
    simp only [State.drawRows, e]
    exact ⟨_, _, State.drawCols_eq _ _ _ _ _⟩

/-- Drawing rows changes VF and the display and nothing else; in particular not the memory it reads. -/
theorem State.drawRows_eq (base vx vy n : Nat) :
    s.drawRows base vx vy n =
      { s with v := (s.drawRows base vx vy n).v, pix := (s.drawRows base vx vy n).pix } :=
  State.eq_of_v_pix (s.drawRows_frame base vx vy n)

/-- The key scan finds a pressed key among 0 to 14, and every lower key is up (44_timer_keypad.md R125). -/
theorem State.firstKey?_some {k : KeyIx} (h : s.firstKey? = some k) :
    k.val < 15 ∧ s.key k = true ∧ ∀ j : KeyIx, j < k → s.key j = false := by
  unfold State.firstKey? at h
  obtain ⟨hk, as, bs, hl, hn⟩ := List.find?_eq_some_iff_append.mp h
  have hmem : k ∈ scannedKeys := by rw [hl]; simp
  refine ⟨?_, hk, ?_⟩
  · exact (by decide : ∀ k ∈ scannedKeys, k.val < 15) k hmem
  · intro j hj
    have hs : scannedKeys.Pairwise (· < ·) := by decide
    have hjm : j ∈ scannedKeys := by
      have : ∀ k ∈ scannedKeys, ∀ j : KeyIx, j < k → j ∈ scannedKeys := by decide
      exact this k hmem j hj
    rw [hl] at hs hjm
    rcases List.mem_append.mp hjm with hm | hm
    · simpa using hn j hm
    · exfalso
      rcases List.mem_cons.mp hm with e | hm
      · exact absurd hj (by simp [e])
      · have := (List.pairwise_append.mp hs).2.1
        exact absurd (List.rel_of_pairwise_cons this hm) (by simpa using le_of_lt hj)

/-- The key scan finds nothing exactly when keys 0 to 14 are all up. -/
theorem State.firstKey?_none : s.firstKey? = none ↔ ∀ k : KeyIx, k.val < 15 → s.key k = false := by
  unfold State.firstKey?
  rw [List.find?_eq_none]
  constructor
  · intro h k hk
    have hm : ∀ k : KeyIx, k.val < 15 → k ∈ scannedKeys := by decide
    simpa using h k (hm k hk)
  · intro h k hk
    have hm : ∀ k ∈ scannedKeys, k.val < 15 := by decide
    simp [h k (hm k hk)]

end Sys2Proof.Machine
end

