-- ==== Sys2Proof/Laws/PerInstr.lean ====
section
/-! SUPPORT. The family of per-instruction lemmas about the instruction as syntax: the word an instruction encodes to has
the fixed bits of its row of the opcode map, and an unmapped word has the fixed bits of no row (spec/30_encoding.md
R56, R59). -/

namespace Sys2Proof

variable (t x y n : Nibble) (kk : Byte) (nnn : Imm12)

theorem wordXYN_type : wordXYN t x y n &&& 0xF000 = wordXYN t 0 0 0 := by
  apply BitVec.eq_of_getLsbD_eq
  intro i hi
  rw [BitVec.getLsbD_and, getLsbD_wordXYN, getLsbD_wordXYN]
  interval_cases i <;> simp

theorem wordXYN_typeN : wordXYN t x y n &&& 0xF00F = wordXYN t 0 0 n := by
  apply BitVec.eq_of_getLsbD_eq
  intro i hi
  rw [BitVec.getLsbD_and, getLsbD_wordXYN, getLsbD_wordXYN]
  interval_cases i <;> simp

theorem wordXK_type : wordXK t x kk &&& 0xF000 = wordXK t 0 0 := by
  apply BitVec.eq_of_getLsbD_eq
  intro i hi
  rw [BitVec.getLsbD_and, getLsbD_wordXK, getLsbD_wordXK]
  interval_cases i <;> simp

theorem wordXK_typeKk : wordXK t x kk &&& 0xF0FF = wordXK t 0 kk := by
  apply BitVec.eq_of_getLsbD_eq
  intro i hi
  rw [BitVec.getLsbD_and, getLsbD_wordXK, getLsbD_wordXK]
  interval_cases i <;> simp

theorem wordA_type : wordA t nnn &&& 0xF000 = wordA t 0 := by
  apply BitVec.eq_of_getLsbD_eq
  intro i hi
  rw [BitVec.getLsbD_and, getLsbD_wordA, getLsbD_wordA]
  interval_cases i <;> simp

namespace Laws.FixedBits

/-- The encoded word has the fixed bits of the instruction's row; an unmapped word those of no row. -/
def Statement (i : Instr) : Prop :=
  i.wf = true →
    match opcodeMap[i.row - 1]? with
    | some r => encode i &&& r.1 = r.2
    | none => ∀ r ∈ opcodeMap, encode i &&& r.1 ≠ r.2

theorem cls : Statement .cls := fun _ => rfl

theorem ret : Statement .ret := fun _ => rfl

theorem jp (nnn : Imm12) : Statement (.jp nnn) := fun _ => (wordA_type _ _).trans rfl

theorem call (nnn : Imm12) : Statement (.call nnn) := fun _ => (wordA_type _ _).trans rfl

theorem seImm (x : RegIx) (kk : Byte) : Statement (.seImm x kk) := fun _ => (wordXK_type _ _ _).trans rfl

theorem sneImm (x : RegIx) (kk : Byte) : Statement (.sneImm x kk) := fun _ => (wordXK_type _ _ _).trans rfl

theorem seReg (x y : RegIx) : Statement (.seReg x y) := fun _ => (wordXYN_type _ _ _ _).trans rfl

theorem ldImm (x : RegIx) (kk : Byte) : Statement (.ldImm x kk) := fun _ => (wordXK_type _ _ _).trans rfl

theorem addImm (x : RegIx) (kk : Byte) : Statement (.addImm x kk) := fun _ => (wordXK_type _ _ _).trans rfl

theorem ldReg (x y : RegIx) : Statement (.ldReg x y) := fun _ => (wordXYN_typeN _ _ _ _).trans rfl

theorem orReg (x y : RegIx) : Statement (.orReg x y) := fun _ => (wordXYN_typeN _ _ _ _).trans rfl

theorem andReg (x y : RegIx) : Statement (.andReg x y) := fun _ => (wordXYN_typeN _ _ _ _).trans rfl

theorem xorReg (x y : RegIx) : Statement (.xorReg x y) := fun _ => (wordXYN_typeN _ _ _ _).trans rfl

theorem addReg (x y : RegIx) : Statement (.addReg x y) := fun _ => (wordXYN_typeN _ _ _ _).trans rfl

theorem subReg (x y : RegIx) : Statement (.subReg x y) := fun _ => (wordXYN_typeN _ _ _ _).trans rfl

theorem shr (x : RegIx) : Statement (.shr x) := fun _ => (wordXYN_typeN _ _ _ _).trans rfl

theorem subnReg (x y : RegIx) : Statement (.subnReg x y) := fun _ => (wordXYN_typeN _ _ _ _).trans rfl

theorem shl (x : RegIx) : Statement (.shl x) := fun _ => (wordXYN_typeN _ _ _ _).trans rfl

theorem sneReg (x y : RegIx) : Statement (.sneReg x y) := fun _ => (wordXYN_type _ _ _ _).trans rfl

theorem ldI (nnn : Imm12) : Statement (.ldI nnn) := fun _ => (wordA_type _ _).trans rfl

theorem jpV0 (nnn : Imm12) : Statement (.jpV0 nnn) := fun _ => (wordA_type _ _).trans rfl

theorem rnd (x : RegIx) (kk : Byte) : Statement (.rnd x kk) := fun _ => (wordXK_type _ _ _).trans rfl

theorem drw (x y : RegIx) (n : RowCount) : Statement (.drw x y n) := fun _ => (wordXYN_type _ _ _ _).trans rfl

theorem skp (x : RegIx) : Statement (.skp x) := fun _ => (wordXK_typeKk _ _ _).trans rfl

theorem sknp (x : RegIx) : Statement (.sknp x) := fun _ => (wordXK_typeKk _ _ _).trans rfl

theorem ldVxDt (x : RegIx) : Statement (.ldVxDt x) := fun _ => (wordXK_typeKk _ _ _).trans rfl

theorem ldVxK (x : RegIx) : Statement (.ldVxK x) := fun _ => (wordXK_typeKk _ _ _).trans rfl

theorem ldDtVx (x : RegIx) : Statement (.ldDtVx x) := fun _ => (wordXK_typeKk _ _ _).trans rfl

theorem ldStVx (x : RegIx) : Statement (.ldStVx x) := fun _ => (wordXK_typeKk _ _ _).trans rfl

theorem addI (x : RegIx) : Statement (.addI x) := fun _ => (wordXK_typeKk _ _ _).trans rfl

theorem ldF (x : RegIx) : Statement (.ldF x) := fun _ => (wordXK_typeKk _ _ _).trans rfl

theorem ldB (x : RegIx) : Statement (.ldB x) := fun _ => (wordXK_typeKk _ _ _).trans rfl

theorem storeRegs (x : RegIx) : Statement (.storeRegs x) := fun _ => (wordXK_typeKk _ _ _).trans rfl

theorem loadRegs (x : RegIx) : Statement (.loadRegs x) := fun _ => (wordXK_typeKk _ _ _).trans rfl

/-- What a selected row says of the type and the selector of a word. -/
theorem selected {op m v : Word} (h : op &&& m = v) (k : Word) : op &&& (m &&& k) = v &&& k := by
  rw [← BitVec.and_assoc, h]

theorem unmapped (op : Word) : Statement (.unmapped op) := by
  intro hw
  show ∀ r ∈ opcodeMap, op &&& r.1 ≠ r.2
  intro r hr h
  have h1 := selected h 0xF000
  have h2 := selected h 0x00FF
  have h3 := selected h 0x000F
  have h4 : op &&& 65535#16 = op := BitVec.and_allOnes (x := op)
  have hw : isUnmapped op = true := hw
  simp only [isUnmapped, Bool.or_eq_true, Bool.and_eq_true, beq_iff_eq, bne_iff_ne, Bool.not_eq_true',
    unmappedType8, mappedTypeF] at hw
  simp only [opcodeMap, List.cons_append, List.nil_append, List.mem_cons, List.not_mem_nil, or_false] at hr
  rcases hr with rfl | rfl | rfl | rfl | rfl | rfl | rfl | rfl | rfl | rfl | rfl | rfl | rfl | rfl | rfl | rfl | rfl |
    rfl | rfl | rfl | rfl | rfl | rfl | rfl | rfl | rfl | rfl | rfl | rfl | rfl | rfl | rfl | rfl | rfl <;>
  simp at h h1 h2 h3 <;> simp_all

end Laws.FixedBits

end Sys2Proof
end

