-- ==== Sys2Proof/Laws/Step.lean ====
section
/-! SUPPORT. What a Step and a host operation can do, said once: the inversion of `step`, the two halves of `step`, and
the shared operations of the host's side (spec/30_encoding.md R51, spec/60_exceptions.md R134, R142). -/

namespace Sys2Proof.Machine

/-- A Step of a running machine executes the word at `pc` on the state past the advance (30_encoding.md R51). -/
theorem step_running {s : State} (h : s.status = .running) : step s = exec (decode s.fetchWord) s.advance := by
  simp [step, h]

/-- A Step of a faulted machine answers the recorded fault (60_exceptions.md R134). -/
theorem step_faulted {s : State} {c : Fault} (h : s.status = .faulted c) : step s = .fault c := by
  simp [step, h]

/-- INVERSION: a Step that answers a next state started from a running machine and executed its decoded instruction. -/
theorem step_next {s t : State} (h : step s = .next t) :
    s.status = .running ∧ exec (decode s.fetchWord) s.advance = .next t := by
  cases hs : s.status with
  | running => exact ⟨rfl, step_running hs ▸ h⟩
  | faulted c => rw [step_faulted hs] at h; cases h

/-- A fault answered by a Step is the one recorded, when the meanings themselves answer none. -/
theorem step_fault {s : State} {c : Fault} (h : step s = .fault c) :
    s.status = .faulted c ∨ exec (decode s.fetchWord) s.advance = .fault c := by
  cases hs : s.status with
  | running => exact .inr (step_running hs ▸ h)
  | faulted d => rw [step_faulted hs] at h; cases h; exact .inl rfl

/-- A timer counts down by one and stops at 0 (44_timer_keypad.md R126). -/
theorem countDown_toNat (b : Byte) : (countDown b).toNat = b.toNat - 1 := by
  have h := b.isLt
  unfold countDown
  split
  · rw [BitVec.toNat_sub]
    simp
    omega
  · omega

/-- `LoadRom` fails exactly when the image is longer than 3584 bytes (20_memory.md R42). -/
theorem State.loadRom?_none (s : State) (image : List Byte) : s.loadRom? image = none ↔ image.length > 3584 := by
  by_cases h : image.length ≤ 3584
  · simp [State.loadRom?, Config.memSize, Config.loadOffset, h]
  · simp [State.loadRom?, Config.memSize, Config.loadOffset, h]
    omega

theorem State.loadRom?_some (s : State) (image : List Byte) (h : image.length ≤ 3584) :
    s.loadRom? image = some (s.writeBytes Config.loadOffset image) := by
  simp [State.loadRom?, Config.memSize, Config.loadOffset, h]

/-- `Reset` leaves the reset state of the instance's font, whatever the state was; the model's own counter of draws goes
on. -/
theorem State.doReset_eq (s : State) : s.doReset = { State.resetWith s.font with draws := s.draws } := rfl

/-- `KEYMAP` sends a code to the one key whose entry it is, if any (44_timer_keypad.md R128). -/
theorem keymap_eq_some_iff (k : KeyIx) (code : Nat) : keymap code = some k ↔ Config.keyCode k = code := by
  constructor
  · intro h
    simpa using List.find?_some h
  · rintro rfl
    obtain ⟨j, hj⟩ : ∃ j, keymap (Config.keyCode k) = some j := by
      rw [← Option.isSome_iff_exists, keymap, List.find?_isSome]
      exact ⟨k, by simp, by simp⟩
    have e : Config.keyCode j = Config.keyCode k := by simpa using List.find?_some hj
    rw [hj, Config.keyTable.distinct j k e]

/-- The word placed for the next fetch changes memory and makes the machine running, and nothing else. -/
theorem State.withFetchWord_eq (s : State) (nbits w : Nat) :
    s.withFetchWord nbits w = { s with mem := (s.withFetchWord nbits w).mem, status := .running } := by
  conv_lhs => rw [State.withFetchWord, State.writeBytes_eq]
  rfl

end Sys2Proof.Machine
end

