-- ==== Sys2Proof/Tests/Slice0.lean ====
section
/-! SUPPORT. The model's own tests. Expected results come from the spec: the decode table of spec/95_test_vectors.md §2.1,
the vectors T1 to T153 and H1 to H13 named in each comment. The second half holds, for every statement with hypotheses, a
concrete state and operands that meet them. -/

namespace Sys2Proof.Tests

open Sys2Proof.Machine

set_option maxRecDepth 4000

/-! ## Well-formedness refuses an unmapped opcode that carries a mapped word -/

theorem test_wf_refuses_type0 : (Instr.unmapped 0x00E0).wf = false ∧ (Instr.unmapped 0x00EE).wf = false := by decide
theorem test_wf_refuses_plain_type : (Instr.unmapped 0x1234).wf = false := by decide
theorem test_wf_refuses_type8 : (Instr.unmapped 0x8127).wf = false ∧ (Instr.unmapped 0x812E).wf = false := by decide
theorem test_wf_refuses_typeE : (Instr.unmapped 0xE19E).wf = false ∧ (Instr.unmapped 0xE1A1).wf = false := by decide
theorem test_wf_refuses_typeF : (Instr.unmapped 0xF165).wf = false ∧ (Instr.unmapped 0xF10A).wf = false := by decide
theorem test_wf_accepts : (Instr.unmapped 0x0000).wf = true ∧ (Instr.unmapped 0x8AB8).wf = true := by decide

/-! ## Words written out from the patterns of 30_encoding.md R56 and the table of 95_test_vectors.md §2.1 -/

theorem test_decode_type0 :
    decode 0x00E0 = .cls ∧ decode 0x00EE = .ret ∧ decode 0x01E0 = .unmapped 0x01E0 ∧ decode 0x0000 = .unmapped 0x0000 := by decide
theorem test_decode_jumps :
    decode 0x1234 = .jp 0x234 ∧ decode 0x2FFF = .call 0xFFF ∧ decode 0xB123 = .jpV0 0x123 ∧ decode 0xA123 = .ldI 0x123 := by decide
theorem test_decode_skips :
    decode 0x3A7F = .seImm 0xA 0x7F ∧ decode 0x4B00 = .sneImm 0xB 0x00 ∧ decode 0x512B = .seReg 1 2 ∧ decode 0x9125 = .sneReg 1 2 := by decide
theorem test_decode_immediates :
    decode 0x6C42 = .ldImm 0xC 0x42 ∧ decode 0x7DFF = .addImm 0xD 0xFF ∧ decode 0xC10F = .rnd 1 0x0F := by decide
theorem test_decode_type8_logic :
    decode 0x8AB0 = .ldReg 0xA 0xB ∧ decode 0x8AB1 = .orReg 0xA 0xB ∧ decode 0x8AB2 = .andReg 0xA 0xB ∧ decode 0x8AB3 = .xorReg 0xA 0xB := by decide
theorem test_decode_type8_arith :
    decode 0x8AB4 = .addReg 0xA 0xB ∧ decode 0x8AB5 = .subReg 0xA 0xB ∧ decode 0x8AB6 = .shr 0xA ∧ decode 0x8AB7 = .subnReg 0xA 0xB ∧ decode 0x8ABE = .shl 0xA := by decide
theorem test_decode_type8_unmapped :
    decode 0x8AB8 = .unmapped 0x8AB8 ∧ decode 0x8ABF = .unmapped 0x8ABF := by decide
theorem test_decode_draw :
    decode 0xD125 = .drw 1 2 5 := by decide
theorem test_decode_keys :
    decode 0xE19E = .skp 1 ∧ decode 0xE1A1 = .sknp 1 ∧ decode 0xE19F = .unmapped 0xE19F ∧ decode 0xF10A = .ldVxK 1 := by decide
theorem test_decode_timers :
    decode 0xF107 = .ldVxDt 1 ∧ decode 0xF115 = .ldDtVx 1 ∧ decode 0xF118 = .ldStVx 1 := by decide
theorem test_decode_index :
    decode 0xF11E = .addI 1 ∧ decode 0xF129 = .ldF 1 ∧ decode 0xF133 = .ldB 1 ∧ decode 0xF155 = .storeRegs 1 ∧ decode 0xF165 = .loadRegs 1 := by decide
theorem test_decode_typeF_unmapped :
    decode 0xF175 = .unmapped 0xF175 ∧ decode 0xFFFF = .unmapped 0xFFFF := by decide

/-- The interface's numbering: the table's bits are the word; the encoder gives the same word. -/
theorem test_decodeTableWord : decodeTableWord 16 0x8014 = some (.addReg 0 1) ∧ encode (.addReg 0 1) = 0x8014 := by decide

/-- The first byte is the high byte (95 §2.1: bytes 12 34 are the word 1234), and one byte is no instruction. -/
theorem test_decodeBytes :
    (decodeBytes [0x12, 0x34, 0x56]).toOption = some (.jp 0x234, [0x56]) ∧ (decodeBytes [0x12]).toOption = none := by decide

/-! ## One Step on a small state -/

/-- The next state of a Step on `s` with the word `w` at `pc`. -/
def stepWord (s : State) (w : Nat) : Option State :=
  match step (s.withFetchWord 16 w) with
  | .next t => some t
  | .fault _ => none
  | .refused _ => none

/-- `pc` and two registers after that Step. -/
def pcAnd (s : State) (w : Nat) (a b : RegIx) : Option (Word × Byte × Byte) :=
  (stepWord s w).map fun t => (t.pc, t.getV a, t.getV b)

/-- `pc` and `I` after that Step. -/
def pcAndI (s : State) (w : Nat) : Option (Word × Word) := (stepWord s w).map fun t => (t.pc, t.i)

/-- The reset state with some registers set. -/
def regs (l : List (RegIx × Byte)) : State := l.foldl (fun s r => s.setV r.1 r.2) State.reset

/-- T1. -/
theorem test_jp : (stepWord State.reset 0x1ABC).map State.pc = some 0x0ABC := by decide
/-- T4: the 16th nested call succeeds and pushes npc. -/
theorem test_call : (stepWord { State.reset with sp := 15 } 0x2300).map (fun t => (t.pc, t.sp, t.stack[15])) = some (0x0300, 16, 0x0202) := by decide
/-- T5: the 17th faults, changing pc and status only. -/
theorem test_call_overflow : (stepWord { State.reset with sp := 16 } 0x2300).map (fun t => (t.pc, t.sp, t.status)) = some (0x0202, 16, .faulted .stackOverflow) := by decide
/-- T8: a 13-bit odd return address is loaded whole. -/
theorem test_ret : (stepWord { State.reset with sp := 16, stack := State.reset.stack.set 15 0x1235 } 0x00EE).map (fun t => (t.pc, t.sp)) = some (0x1235, 15) := by decide
/-- T7. -/
theorem test_ret_underflow : (stepWord State.reset 0x00EE).map (fun t => (t.pc, t.sp, t.status)) = some (0x0202, 0, .faulted .stackUnderflow) := by decide
/-- T10, T22: equal skips, wrapping modulo 65536. -/
theorem test_seImm : (stepWord (regs [(3, 0x42)]) 0x3342).map State.pc = some 0x0204 ∧ (stepWord { regs [(3, 0x42)] with pc := 0xFFFE } 0x3342).map State.pc = some 0x0002 := by decide
/-- T12, T13. -/
theorem test_sneImm : (stepWord (regs [(3, 0x42)]) 0x4342).map State.pc = some 0x0202 ∧ (stepWord (regs [(3, 0x42)]) 0x4343).map State.pc = some 0x0204 := by decide
/-- T15, T16. -/
theorem test_seReg : (stepWord (regs [(1, 0x7F), (2, 0x7F)]) 0x5127).map State.pc = some 0x0204 ∧ (stepWord (regs [(1, 0x7F), (2, 0x7E)]) 0x5120).map State.pc = some 0x0202 := by decide
/-- T18, T19. -/
theorem test_sneReg : (stepWord (regs [(1, 1), (2, 2)]) 0x912F).map State.pc = some 0x0204 ∧ (stepWord (regs [(4, 9)]) 0x9440).map State.pc = some 0x0202 := by decide
/-- T21: the sum is not reduced to 12 bits. -/
theorem test_jpV0 : (stepWord (regs [(0, 2)]) 0xBFFF).map State.pc = some 0x1001 := by decide
/-- T24. -/
theorem test_unmapped : stepWord (regs [(1, 5), (2, 6)]) 0x8128 = some ((regs [(1, 5), (2, 6)]).withFetchWord 16 0x8128).advance := by decide
/-- T41. -/
theorem test_ldImm : pcAnd (regs [(15, 7)]) 0x6F00 15 0 = some (0x0202, 0, 0) := by decide
/-- T42, T43: no flag. -/
theorem test_addImm : pcAnd (regs [(0, 0xFF)]) 0x7002 0 15 = some (0x0202, 1, 0) ∧ pcAnd (regs [(0, 0x10), (15, 1)]) 0x7005 0 15 = some (0x0202, 0x15, 1) := by decide
/-- T44. -/
theorem test_ldReg : pcAnd (regs [(1, 0xAB)]) 0x8010 0 1 = some (0x0202, 0xAB, 0xAB) := by decide
/-- T45: VF untouched. -/
theorem test_orReg : pcAnd (regs [(0, 0xF0), (1, 0x0F), (15, 1)]) 0x8011 0 15 = some (0x0202, 0xFF, 1) := by decide
/-- T46. -/
theorem test_andReg : pcAnd (regs [(0, 0xF0), (1, 0x3C), (15, 1)]) 0x8012 0 15 = some (0x0202, 0x30, 1) := by decide
/-- T47. -/
theorem test_xorReg : pcAnd (regs [(0, 0xF0), (1, 0x3C), (15, 1)]) 0x8013 0 15 = some (0x0202, 0xCC, 1) := by decide
/-- T51, T54: the old VF is the operand. -/
theorem test_addReg : pcAnd (regs [(0, 0xFF), (1, 1)]) 0x8014 0 15 = some (0x0202, 0, 1) ∧ pcAnd (regs [(0, 0x10), (15, 5)]) 0x80F4 0 15 = some (0x0202, 0x15, 0) := by decide
/-- T53: with x = 15 the result wins. -/
theorem test_addReg_vf : pcAnd (regs [(15, 0xFF), (1, 2)]) 0x8F14 15 1 = some (0x0202, 1, 2) := by decide
/-- T56, T57: equal operands clear VF. -/
theorem test_subReg : pcAnd (regs [(0, 1), (1, 2), (15, 1)]) 0x8015 0 15 = some (0x0202, 0xFF, 0) ∧ pcAnd (regs [(0, 7), (1, 7), (15, 1)]) 0x8015 0 15 = some (0x0202, 0, 0) := by decide
/-- T58. -/
theorem test_subReg_vf : pcAnd (regs [(15, 9), (1, 3)]) 0x8F15 15 1 = some (0x0202, 6, 3) := by decide
/-- T60, T61: Vy ignored, the result wins. -/
theorem test_shr : pcAnd (regs [(0, 0xFE), (1, 0x55), (15, 1)]) 0x8016 0 15 = some (0x0202, 0x7F, 0) ∧ pcAnd (regs [(15, 3)]) 0x8F06 15 0 = some (0x0202, 1, 0) := by decide
/-- T62, T63. -/
theorem test_subnReg : pcAnd (regs [(0, 3), (1, 5)]) 0x8017 0 15 = some (0x0202, 2, 1) ∧ pcAnd (regs [(0, 5), (1, 3), (15, 1)]) 0x8017 0 15 = some (0x0202, 0xFE, 0) := by decide
/-- T66, T67. -/
theorem test_shl : pcAnd (regs [(0, 0x7F), (1, 0xFF), (15, 1)]) 0x801E 0 15 = some (0x0202, 0xFE, 0) ∧ pcAnd (regs [(15, 0x81)]) 0x8F0E 15 0 = some (0x0202, 2, 0) := by decide
/-- T71: a zero mask gives 0 for every draw, and one draw is taken. -/
theorem test_rnd : (stepWord (regs [(2, 0xAA)]) 0xC200).map (fun t => (t.getV 2, t.draws)) = some (0, 1) := by
  show some (Config.randomByte 0 &&& 0, 1) = some (0, 1)
  simp
/-- T81: the high 4 bits become 0. -/
theorem test_ldI : pcAndI { State.reset with i := 0xFFFF } 0xA000 = some (0x0202, 0) := by decide
/-- T83, T84. -/
theorem test_addI : pcAndI { regs [(2, 1)] with i := 0x0FFF } 0xF21E = some (0x0202, 0x1000) ∧ pcAndI { regs [(2, 2)] with i := 0xFFFF } 0xF21E = some (0x0202, 0x0001) := by decide
/-- T87, T88: the whole byte is multiplied. -/
theorem test_ldF : pcAndI (regs [(0, 0x10)]) 0xF029 = some (0x0202, 0x0050) ∧ pcAndI (regs [(0, 0xFF)]) 0xF029 = some (0x0202, 0x04FB) := by decide
/-- T89. -/
theorem test_ldB : (stepWord { regs [(0, 0xEA)] with i := 0x0300 } 0xF033).map (fun t => (t.readByte 0x300, t.readByte 0x301, t.readByte 0x302, t.i)) = some (2, 3, 4, 0x0300) := by decide
/-- T92: the ones digit wraps to 0x000. -/
theorem test_ldB_wraps : (stepWord { regs [(4, 0x6D)] with i := 0x0FFE } 0xF433).map (fun t => (t.readByte 0xFFE, t.readByte 0xFFF, t.readByte 0)) = some (1, 0, 9) := by decide
/-- T93: V3 is not stored. -/
theorem test_storeRegs : (stepWord { regs [(0, 2), (1, 3), (2, 4), (3, 0x99)] with i := 0x0310 } 0xF355).map (fun t => (t.readByte 0x310, t.readByte 0x312, t.readByte 0x313, t.i)) = some (2, 4, 0, 0x0313) := by decide
/-- T95. -/
theorem test_storeRegs_wraps : (stepWord { regs [(0, 0x11), (1, 0x22)] with i := 0x0FFF } 0xF255).map (fun t => (t.readByte 0xFFF, t.readByte 0, t.i)) = some (0x11, 0x22, 0x1001) := by decide
/-- T98: the first five font bytes. -/
theorem test_loadRegs : (stepWord State.reset 0xF565).map (fun t => (t.getV 0, t.getV 3, t.getV 4, t.getV 5, t.i)) = some (0xF0, 0x90, 0xF0, 0, 5) := by decide
/-- T97: x = 0 loads nothing. -/
theorem test_loadRegs_zero : (stepWord { regs [(0, 0x77)] with i := 0x0300 } 0xF065).map (fun t => (t.getV 0, t.i)) = some (0x77, 0x0300) := by decide
/-- T110. -/
theorem test_cls : (stepWord (State.reset.togglePixel 63 31) 0x00E0).map (fun t => (t.pixel 63 31, t.pc)) = some (false, 0x0202) := by decide
/-- T111: the source's wrap example. -/
theorem test_drw : (stepWord { (regs [(0, 63)]).writeByte 0x300 0xC0 with i := 0x0300 } 0xD011).map (fun t => (t.pixel 63 0, t.pixel 0 0, t.pixel 1 0, t.getV 15)) = some (true, true, false, 0) := by decide
/-- T112. -/
theorem test_drw_collision : (stepWord { (State.reset.writeByte 0x300 0x80).togglePixel 0 0 with i := 0x0300 } 0xD001).map (fun t => (t.pixel 0 0, t.getV 15)) = some (false, 1) := by decide
/-- T132, T131: the low 4 bits name the key. -/
theorem test_skp : (stepWord ((regs [(1, 0x1A)]).setKey 0xA true) 0xE19E).map State.pc = some 0x0204 ∧ (stepWord (regs [(1, 5)]) 0xE19E).map State.pc = some 0x0202 := by decide
/-- T134, T135. -/
theorem test_sknp : (stepWord (regs [(1, 5)]) 0xE1A1).map State.pc = some 0x0204 ∧ (stepWord ((regs [(1, 5)]).setKey 5 true) 0xE1A1).map State.pc = some 0x0202 := by decide
/-- T136. -/
theorem test_ldVxDt : pcAnd { State.reset with dt := 7 } 0xF107 1 0 = some (0x0202, 7, 0) := by decide
/-- T137. -/
theorem test_ldDtVx : (stepWord (regs [(0, 0x0A)]) 0xF015).map (fun t => (t.dt, t.st)) = some (0x0A, 0) := by decide
/-- T138. -/
theorem test_ldStVx : (stepWord (regs [(0, 3)]) 0xF018).map (fun t => (t.dt, t.st)) = some (0, 3) := by decide
/-- T139, T141: the lowest key wins, key F is not seen. -/
theorem test_ldVxK : pcAnd (((regs [(2, 0x55)]).setKey 3 true).setKey 7 true) 0xF20A 2 0 = some (0x0202, 3, 0) ∧ pcAnd ((regs [(2, 0x55)]).setKey 15 true) 0xF20A 2 0 = some (0x0202, 0x55, 0) := by decide
/-- 95 §2.1: at 0x0FFF the low byte is the font's first byte. -/
theorem test_fetch_wraps : ({ State.reset.writeByte 0xFFF 0x6A with pc := 0x0FFF } : State).fetchWord = 0x6AF0 := by decide
/-- 10_state.md R22: the default font has 80 bytes; the last rows of glyph 7 (0x023) and of glyph F (0x04B). -/
theorem test_default_font :
    defaultFont.bytes.length = 80 ∧ State.reset.readByte 0x026 = 0x40 ∧ State.reset.readByte 0x04E = 0x80 ∧
      State.reset.readByte 0x04F = 0x80 ∧ State.reset.readByte 0x050 = 0 := by decide
/-- Another instance's font, of three bytes (10_state.md R22 leaves the table open). -/
def otherFont : Font := { bytes := [0x11, 0x22, 0x33], fits := by decide }
/-- 10_state.md R23 with another font: `FONT[a]` below FONT_SIZE, 0 from there on; Reset restores an overwritten byte. -/
theorem test_other_font :
    (State.resetWith otherFont).readByte 2 = 0x33 ∧ (State.resetWith otherFont).readByte 3 = 0 ∧
      ((State.resetWith otherFont).writeByte 1 0xAA).doReset.readByte 1 = 0x22 := by decide

/-! ## The host operations -/

/-- The state and reply of an operation, if it has a meaning. -/
def after (s : State) (o : Operation) : Option (State × Reply) :=
  match operate s o with
  | .next r => some r
  | .fault _ => none
  | .refused _ => none

/-- H6, H7, H8. -/
theorem test_tick : (after { State.reset with dt := 2, st := 1 } .tickTimers).map (fun r => (r.1.dt, r.1.st)) = some (1, 0) ∧ (after State.reset .tickTimers).map (fun r => (r.1.dt, r.1.st)) = some (0, 0) := by decide
/-- H10, H11. -/
theorem test_setKey : (after State.reset (.setKey 0xA true)).map (fun r => r.1.key 0xA) = some true ∧ (after (State.reset.setKey 0xA true) (.setKey 0xA false)).map (fun r => r.1.key 0xA) = some false := by decide
/-- H2. -/
theorem test_loadRom : (after State.reset (.loadRom [0x60, 0xFF, 0x12, 0x02])).map (fun r => (r.1.readByte 0x200, r.1.readByte 0x203, r.1.readByte 0x204, r.2)) = some (0x60, 0x02, 0, .ok) := by decide
/-- H13. -/
theorem test_readPixel : (after (State.reset.togglePixel 63 0) (.readPixel 63 0)).map Prod.snd = some (.pixel true) ∧ (after (State.reset.togglePixel 63 0) (.readPixelIndex 63)).map Prod.snd = some (.pixel true) := by decide
/-- T150, T153. -/
theorem test_step_while_faulted : (after { State.reset with status := .faulted .stackOverflow } .step) = some ({ State.reset with status := .faulted .stackOverflow }, .faultAgain .stackOverflow) := by decide
/-- T7: the fault record. -/
theorem test_step_reports_fault : (after (State.reset.withFetchWord 16 0x00EE) .step).map Prod.snd = some (.fault .stackUnderflow 0x0200 0x00EE) := by decide
/-- H5: an image of 3585 bytes is refused and nothing changes. -/
theorem test_loadRom_too_large :
    after State.reset (.loadRom (List.replicate 3585 0xAA)) = some (State.reset, .romTooLarge) := by
  have h := (State.loadRom?_none State.reset (List.replicate 3585 (0xAA : Byte))).mpr
    (by rw [List.length_replicate]; decide)
  simp only [after, operate, h]

/-! ## Witnesses: states and operands that meet the hypotheses of each statement, at the boundaries of each clause -/

/-- A running state whose next instruction is the word `w`. -/
def at_ (w : Nat) : State := State.reset.withFetchWord 16 w

theorem witness_StepRunsTheDecodedInstruction :
    (at_ 0x00E0).status = .running ∧ (decodeBytes [(at_ 0x00E0).readByte 0x200, (at_ 0x00E0).readByte 0x201]).toOption = some (.cls, []) ∧
      (at_ 0x00E0).pc.toNat = 0x200 := by decide
theorem witness_StepRunsTheDecodedInstruction_faulted :
    (State.reset.raise .stackOverflow).status = .faulted .stackOverflow := by decide
theorem witness_OpcodeMapSelectsTheRow :
    opcodeMap[0]? = some (0xFFFF, 0x00E0) ∧ opcodeMap[33]? = some (0xF0FF, 0xF065) ∧ (0x00E0 : Word) &&& 0xFFFF = 0x00E0 ∧
      (0xFF65 : Word) &&& 0xF0FF = 0xF065 := by decide
theorem witness_OpcodeMapSelectsTheRow_unmapped : ∀ r ∈ opcodeMap, (0x0000 : Word) &&& r.1 ≠ r.2 := by simp [opcodeMap]
theorem witness_OnlyIgnoredBitsAreIgnored :
    (0x512B : Word) &&& usedBits (decode 0x512B) = 0x5120 &&& usedBits (decode 0x512B) := by decide
theorem witness_DecodeOfEncode : (Instr.addReg 15 0).wf = true ∧ (Instr.unmapped 0x8128).wf = true := by decide
/-- Every encoding clause: a word whose bits under the mask are the value, for the masks of R56. -/
theorem witness_Selects :
    (0x00EE : Word) &&& 0xFFFF = 0x00EE ∧ (0x1FFF : Word) &&& 0xF000 = 0x1000 ∧ (0x8FF4 : Word) &&& 0xF00F = 0x8004 ∧
      (0xFF65 : Word) &&& 0xF0FF = 0xF065 := by decide
theorem witness_ReturnPopsTheStack :
    ({ State.reset with sp := 1 } : State).sp.val = 0 + 1 ∧ ({ State.reset with sp := 16 } : State).sp.val = 15 + 1 ∧
      State.reset.sp.val = 0 := by decide
theorem witness_CallPushesTheReturnAddress :
    State.reset.sp.val < 16 ∧ ({ State.reset with sp := 15 } : State).sp.val < 16 ∧
      ({ State.reset with sp := 16 } : State).sp.val = 16 := by decide
theorem witness_UnmappedOpcodeIsANoOp :
    State.reset.status = .running ∧ isUnmapped State.reset.fetchWord = true ∧ isUnmapped 0xFFFF = true := by decide
/-- The premise `x ≠ 15` of the flag clauses, met at the two ends of its range. -/
theorem witness_flag_clauses : (0 : RegIx) ≠ flagReg ∧ (14 : RegIx) ≠ flagReg := by decide
theorem witness_canonical_memory :
    Memory.wf State.reset.font State.reset.mem = true ∧ Memory.wf defaultFont (State.reset.writeByte 0xFFF 1).mem = true := by decide
theorem witness_StoreRegisters : (0 : RegIx) < 1 ∧ (14 : RegIx) < 15 := by decide
/-- Cell 0x000 is the last of the three cells from 0x0FFE on, and 0x001 is none of them. -/
theorem witness_StoreDecimalDigits : Touches 0x0FFE 3 0x000 ∧ ¬ Touches 0x0FFE 3 0x001 := by
  unfold Touches
  decide
theorem witness_DrawTwiceRestores : (0 : RegIx) ≠ flagReg ∧ (14 : RegIx) ≠ flagReg := by decide
theorem witness_SkipsOnAKey :
    (0xA : KeyIx).val = ((regs [(1, 0x1A)]).getV 1).toNat % 16 ∧ (0xF : KeyIx).val = ((regs [(1, 0xFF)]).getV 1).toNat % 16 := by
  decide
theorem witness_KeyPollTakesTheLowestKey :
    (State.reset.setKey 14 true).key 14 = true ∧ (∀ j : KeyIx, j < 14 → (State.reset.setKey 14 true).key j = false) ∧
      (State.reset.setKey 0 true).key 0 = true ∧ (∀ j : KeyIx, j < 0 → (State.reset.setKey 0 true).key j = false) ∧
      (∀ k : KeyIx, k.val < 15 → (State.reset.setKey 15 true).key k = false) := by decide
theorem witness_OnlyCallAndReturnFault :
    exec (.call 0x300) { State.reset with sp := 16 } =
        .next { ({ State.reset with sp := 16 } : State) with status := .faulted .stackOverflow } ∧
      exec .ret State.reset = .next { State.reset with status := .faulted .stackUnderflow } ∧
      State.reset.status = .running := ⟨rfl, rfl, rfl⟩
theorem witness_FaultEntryChangesPcAndStatus :
    step (at_ 0x00EE) = .next ((at_ 0x00EE).advance.raise .stackUnderflow) ∧
      ((at_ 0x00EE).advance.raise .stackUnderflow).status = .faulted .stackUnderflow := ⟨rfl, rfl⟩
theorem witness_StepReportsItsFault :
    (at_ 0x00EE).status = .running ∧ step (at_ 0x00EE) = .next ((at_ 0x00EE).advance.raise .stackUnderflow) ∧
      step (at_ 0x0000) = .next (at_ 0x0000).advance ∧ (at_ 0x0000).advance.status = .running := ⟨rfl, rfl, rfl, rfl⟩
theorem witness_FaultIsStickyUntilReset :
    (State.reset.raise .stackOverflow).status = .faulted .stackOverflow ∧ Operation.tickTimers ≠ .step ∧
      Operation.tickTimers ≠ .reset ∧ Operation.loadRom [] ≠ .step ∧ Operation.loadRom [] ≠ .reset := by decide
theorem witness_RunningStepCompletes : State.reset.status = .running := rfl
theorem witness_StepKeepsTheInvariant :
    State.reset.Inv ∧ step State.reset = .next State.reset.advance := ⟨⟨rfl, by decide⟩, rfl⟩
theorem witness_ResetMeetsTheInvariant : operate (State.reset.raise .stackOverflow) .reset = .next (State.reset, .none) := rfl
theorem witness_EverySessionKeepsTheInvariant :
    session defaultFont none [.reset, .step] = .next (some State.reset.advance, [.none, .ok]) ∧ State.reset.Inv ∧
      operate State.reset .step = .next (State.reset.advance, .ok) := ⟨rfl, ⟨rfl, by decide⟩, rfl⟩
/-- The two clauses about memory where they meet, for the default font and for another. -/
theorem witness_ResetValues :
    79 < State.reset.font.bytes.length ∧ State.reset.font.bytes.length ≤ 80 ∧ State.reset.font.bytes.length ≤ 0xFFF ∧
      2 < (State.resetWith otherFont).font.bytes.length ∧ (State.resetWith otherFont).font.bytes.length ≤ 3 := by decide
theorem witness_LoadRomCopiesOrFails :
    (List.replicate 3585 (0xAA : Byte)).length > 3584 ∧ (List.replicate 3584 (0xAA : Byte)).length ≤ 3584 ∧
      ([] : List Byte).length ≤ 3584 := by
  rw [List.length_replicate, List.length_replicate]
  decide
/-- The two answers of the key map cannot be shown at one code, since its table is open (log entry 3): every code has one. -/
theorem witness_KeyOperations (code : Nat) : keymap code = none ∨ ∃ k, keymap code = some k := by
  cases keymap code with
  | none => exact .inl rfl
  | some k => exact .inr ⟨k, rfl⟩
/-- The first clause for whatever table: the code of key 0 is mapped to key 0, that of key 15 to key 15. -/
theorem witness_KeyOperations_mapped : keymap (Config.keyCode 0) = some 0 ∧ keymap (Config.keyCode 15) = some 15 :=
  ⟨(keymap_eq_some_iff 0 _).mpr rfl, (keymap_eq_some_iff 15 _).mpr rfl⟩
/-- The second clause for whatever table: a code above all 16 entries is not mapped. -/
theorem witness_KeyOperations_unmapped : ∃ code, keymap code = none := by
  refine ⟨(Finset.univ.sup Config.keyCode) + 1, Option.eq_none_iff_forall_ne_some.mpr fun k hk => ?_⟩
  have e := (keymap_eq_some_iff k _).mp hk
  have h : Config.keyCode k ≤ Finset.univ.sup Config.keyCode := Finset.le_sup (Finset.mem_univ k)
  omega
theorem witness_ReadPixelForms :
    (2047 : Fin 2048).val = (63 : Fin 64).val + 64 * (31 : Fin 32).val ∧
      (0 : Fin 2048).val = (0 : Fin 64).val + 64 * (0 : Fin 32).val := by decide
theorem witness_NothingRunsBeforeReset : Operation.step ≠ .reset ∧ Operation.loadRom [] ≠ .reset := by decide
theorem witness_HostEventsDivertNothing :
    operate State.reset .tickTimers = .next (State.reset, .none) ∧ Operation.tickTimers ≠ .step ∧
      Operation.tickTimers ≠ .reset ∧ (∀ image, Operation.tickTimers ≠ .loadRom image) :=
  ⟨rfl, by decide, by decide, fun _ h => by cases h⟩
/-- An instruction that meets the premises of every statement of the form 'only these instructions write ...': the no-op is
none of the writers and answers a next state. -/
theorem witness_writers :
    exec (.unmapped 0) State.reset = .next State.reset ∧ (∀ x, Instr.unmapped 0 ≠ .ldDtVx x) ∧
      (∀ x, Instr.unmapped 0 ≠ .ldStVx x) ∧ (∀ nnn, Instr.unmapped 0 ≠ .ldI nnn) ∧ (∀ x, Instr.unmapped 0 ≠ .addI x) ∧
      (∀ x, Instr.unmapped 0 ≠ .ldF x) ∧ (∀ x, Instr.unmapped 0 ≠ .storeRegs x) ∧ (∀ x, Instr.unmapped 0 ≠ .loadRegs x) ∧
      (∀ x, Instr.unmapped 0 ≠ .ldB x) ∧ Instr.unmapped 0 ≠ .cls ∧ (∀ x y n, Instr.unmapped 0 ≠ .drw x y n) ∧
      (∀ nnn, Instr.unmapped 0 ≠ .call nnn) ∧ Instr.unmapped 0 ≠ .ret := by
  refine ⟨rfl, ?_, ?_, ?_, ?_, ?_, ?_, ?_, ?_, ?_, ?_, ?_, ?_⟩ <;> intros <;> simp
theorem witness_StoreIsSeenByTheNextFetch :
    Memory.wf State.reset.font State.reset.mem = true ∧ 2 ≤ (2 : RegIx).val ∧ ({ State.reset with i := 0x0200 } : State).pc = 0x0200 := by decide
theorem witness_SelfJumpIsTheEnd : (at_ 0x1200).AtSelfJump := by
  unfold State.AtSelfJump State.NotFaulted
  decide

end Sys2Proof.Tests
end

section
/-! What an instruction may write (spec/10_state.md R13 to R21), said once: the fields of the state each instruction
writes, and that every other field is left alone. The obligations about the writers of one field are read off this. -/

namespace Sys2Proof.Machine

/-- The fields of a state, by name. -/
inductive StateField where
  | v | i | pc | sp | stack | dt | st | mem | pix | keys | status | font | draws

/-- `s` and `t` agree in one field. -/
def StateField.Same (s t : State) : StateField → Prop
  | .v => t.v = s.v
  | .i => t.i = s.i
  | .pc => t.pc = s.pc
  | .sp => t.sp = s.sp
  | .stack => t.stack = s.stack
  | .dt => t.dt = s.dt
  | .st => t.st = s.st
  | .mem => t.mem = s.mem
  | .pix => t.pix = s.pix
  | .keys => t.keys = s.keys
  | .status => t.status = s.status
  | .font => t.font = s.font
  | .draws => t.draws = s.draws

/-- Frame: `t` differs from `s` at most in the fields `fs`. -/
def OnlyWrites (fs : List StateField) (s t : State) : Prop := ∀ f, f ∉ fs → f.Same s t

end Sys2Proof.Machine

namespace Sys2Proof

/-- The fields an instruction may write beyond the advance of `pc`. -/
def Instr.writes : Instr → List Machine.StateField
  | .cls => [.pix]
  | .ret => [.pc, .sp, .status]
  | .call _ => [.pc, .sp, .stack, .status]
  | .jp _ | .jpV0 _ | .seImm _ _ | .sneImm _ _ | .seReg _ _ | .sneReg _ _ | .skp _ | .sknp _ => [.pc]
  | .ldImm _ _ | .addImm _ _ | .ldReg _ _ | .orReg _ _ | .andReg _ _ | .xorReg _ _ | .addReg _ _ | .subReg _ _
  | .shr _ | .subnReg _ _ | .shl _ | .ldVxDt _ | .ldVxK _ => [.v]
  | .rnd _ _ => [.v, .draws]
  | .drw _ _ _ => [.v, .pix]
  | .ldI _ | .addI _ | .ldF _ => [.i]
  | .ldDtVx _ => [.dt]
  | .ldStVx _ => [.st]
  | .ldB _ => [.mem]
  | .storeRegs _ => [.mem, .i]
  | .loadRegs _ => [.v, .i]
  | .unmapped _ => []

end Sys2Proof

namespace Sys2Proof.Machine

section
variable {i : Instr} {s t : State}

/-! ### Frames of record updates -/

/-- The frame, field by field. -/
theorem onlyWrites_iff {fs : List StateField} : OnlyWrites fs s t ↔
    (.v ∉ fs → t.v = s.v) ∧ (.i ∉ fs → t.i = s.i) ∧ (.pc ∉ fs → t.pc = s.pc) ∧ (.sp ∉ fs → t.sp = s.sp) ∧
    (.stack ∉ fs → t.stack = s.stack) ∧ (.dt ∉ fs → t.dt = s.dt) ∧ (.st ∉ fs → t.st = s.st) ∧
    (.mem ∉ fs → t.mem = s.mem) ∧ (.pix ∉ fs → t.pix = s.pix) ∧ (.keys ∉ fs → t.keys = s.keys) ∧
    (.status ∉ fs → t.status = s.status) ∧ (.font ∉ fs → t.font = s.font) ∧ (.draws ∉ fs → t.draws = s.draws) := by
  constructor
  · intro h
    exact ⟨h .v, h .i, h .pc, h .sp, h .stack, h .dt, h .st, h .mem, h .pix, h .keys, h .status, h .font, h .draws⟩
  · rintro ⟨hv, hi, hpc, hsp, hstack, hdt, hst, hmem, hpix, hkeys, hstatus, hfont, hdraws⟩ f
    cases f <;> assumption

theorem OnlyWrites.refl (fs : List StateField) (s : State) : OnlyWrites fs s s := by
  simp [onlyWrites_iff]

theorem onlyWrites_v (s : State) (v : Vector Byte 16) : OnlyWrites [.v] s { s with v := v } := by
  simp [onlyWrites_iff]

theorem onlyWrites_i (s : State) (w : Word) : OnlyWrites [.i] s { s with i := w } := by
  simp [onlyWrites_iff]

theorem onlyWrites_pc (s : State) (w : Word) : OnlyWrites [.pc] s { s with pc := w } := by
  simp [onlyWrites_iff]

/-! ### Subroutine call and return: everything they can do -/

theorem execRet_underflow (h : s.sp.val = 0) : execRet s = .next (s.raise .stackUnderflow) := by
  simp [execRet, s.pop?_none.mpr h]

theorem execRet_pop {k : Nat} (h : s.sp.val = k + 1) (hk : k < 16) :
    execRet s = .next { s with pc := s.stack[k], sp := ⟨k, Nat.lt_succ_of_lt hk⟩ } := by
  simp only [execRet, s.pop?_some h hk]
  rfl

/-- INVERSION: RET takes the underflow fault, or pops the entry below `sp` into `pc` (40_control_flow.md R70). -/
theorem execRet_next (h : execRet s = .next t) :
    (s.sp.val = 0 ∧ t = s.raise .stackUnderflow) ∨
      ∃ (k : Nat) (hk : k < 16), s.sp.val = k + 1 ∧ t = { s with pc := s.stack[k], sp := ⟨k, Nat.lt_succ_of_lt hk⟩ } := by
  cases hs : s.sp.val with
  | zero => exact .inl ⟨rfl, (Host.Outcome.next.inj ((execRet_underflow hs).symm.trans h)).symm⟩
  | succ k =>
    have hk : k < 16 := by omega
    exact .inr ⟨k, hk, rfl, (Host.Outcome.next.inj ((execRet_pop hs hk).symm.trans h)).symm⟩

theorem execCall_overflow (nnn : Imm12) (h : s.sp.val = 16) : execCall nnn s = .next (s.raise .stackOverflow) := by
  simp [execCall, (s.push?_none s.pc).mpr h]

theorem execCall_push (nnn : Imm12) (h : s.sp.val < 16) :
    execCall nnn s = .next { s with
      pc := addrOfImm nnn, stack := s.stack.set s.sp.val s.pc, sp := ⟨s.sp.val + 1, Nat.succ_lt_succ h⟩ } := by
  simp only [execCall, s.push?_some s.pc h]
  rfl

/-- INVERSION: CALL takes the overflow fault, or pushes `npc` at `sp` and jumps (40_control_flow.md R72). -/
theorem execCall_next {nnn : Imm12} (h : execCall nnn s = .next t) :
    (s.sp.val = 16 ∧ t = s.raise .stackOverflow) ∨
      ∃ hs : s.sp.val < 16, t = { s with
        pc := addrOfImm nnn, stack := s.stack.set s.sp.val s.pc, sp := ⟨s.sp.val + 1, Nat.succ_lt_succ hs⟩ } := by
  rcases Nat.lt_or_ge s.sp.val 16 with hs | hs
  · exact .inr ⟨hs, (Host.Outcome.next.inj ((execCall_push nnn hs).symm.trans h)).symm⟩
  · have hs : s.sp.val = 16 := by omega
    exact .inl ⟨hs, (Host.Outcome.next.inj ((execCall_overflow nnn hs).symm.trans h)).symm⟩

/-! ### The frame of every instruction -/

theorem execRet_onlyWrites (h : execRet s = .next t) : OnlyWrites [.pc, .sp, .status] s t := by
  obtain ⟨-, rfl⟩ | ⟨k, hk, -, rfl⟩ := execRet_next h <;> simp [onlyWrites_iff]

theorem execCall_onlyWrites {nnn : Imm12} (h : execCall nnn s = .next t) :
    OnlyWrites [.pc, .sp, .stack, .status] s t := by
  obtain ⟨-, rfl⟩ | ⟨hs, rfl⟩ := execCall_next h <;> simp [onlyWrites_iff]

theorem execLdVxK_onlyWrites {x : RegIx} (h : execLdVxK x s = .next t) : OnlyWrites [.v] s t := by
  unfold execLdVxK at h
  split at h <;> cases h
  · exact onlyWrites_v s _
  · exact .refl _ s

theorem skipIf_onlyWrites (s : State) (c : Bool) : OnlyWrites [.pc] s (s.skipIf c) := by
  rw [s.skipIf_eq c]
  exact onlyWrites_pc s _

theorem execDrw_onlyWrites {x y : RegIx} {n : RowCount} (h : execDrw x y n s = .next t) :
    OnlyWrites [.v, .pix] s t := by
  cases h
  rw [State.drawRows_eq]
  simp [onlyWrites_iff]

theorem writeBytes_onlyWrites (s : State) (a : Nat) (bs : List Byte) : OnlyWrites [.mem] s (s.writeBytes a bs) := by
  rw [State.writeBytes_eq]
  simp [onlyWrites_iff]

theorem execStoreRegs_onlyWrites {x : RegIx} (h : execStoreRegs x s = .next t) : OnlyWrites [.mem, .i] s t := by
  cases h
  rw [State.writeBytes_eq]
  simp [onlyWrites_iff]

theorem execLoadRegs_onlyWrites {x : RegIx} (h : execLoadRegs x s = .next t) : OnlyWrites [.v, .i] s t := by
  cases h
  rw [State.loadFrom_eq]
  simp [onlyWrites_iff]

/-- THE FRAME OF EVERY INSTRUCTION: what `Instr.writes` does not list is left alone. -/
theorem exec_onlyWrites (h : exec i s = .next t) : OnlyWrites i.writes s t := by
  cases i
  case ret => exact execRet_onlyWrites h
  case call nnn => exact execCall_onlyWrites h
  case ldVxK x => exact execLdVxK_onlyWrites h
  case drw x y n => exact execDrw_onlyWrites h
  case storeRegs x => exact execStoreRegs_onlyWrites h
  case loadRegs x => exact execLoadRegs_onlyWrites h
  all_goals cases h
  case jp | jpV0 => exact onlyWrites_pc s _
  case seImm | sneImm | seReg | sneReg | skp | sknp => exact skipIf_onlyWrites s _
  case ldImm | addImm | ldReg | orReg | andReg | xorReg | ldVxDt => exact onlyWrites_v s _
  case addReg | subReg | shr | subnReg | shl => exact onlyWrites_v s _
  case ldI | addI | ldF => exact onlyWrites_i s _
  case ldB x => exact writeBytes_onlyWrites s _ _
  case unmapped op => exact .refl _ s
  case cls | rnd | ldDtVx | ldStVx => simp [onlyWrites_iff, Instr.writes, State.drawByte]

/-! ### What the skips, LD Vx,K and LD Vx,[I] do to the field they write -/

/-- A skip leaves `pc` at `npc` or adds 2 to it (40_control_flow.md R77). -/
theorem State.skipIf_pc (s : State) (c : Bool) : (s.skipIf c).pc = s.pc ∨ (s.skipIf c).pc = s.pc + 2 := by
  cases c
  · exact .inl rfl
  · exact .inr rfl

/-- LD Vx,K writes at most its own destination (44_timer_keypad.md R125). -/
theorem execLdVxK_getV_other {x q : RegIx} (h : execLdVxK x s = .next t) (hq : q ≠ x) :
    t.getV q = s.getV q := by
  unfold execLdVxK at h
  split at h <;> cases h
  · exact s.getV_setV_other x q _ hq
  · rfl

/-- LD Vx,[I] loads no register from `Vx` on, whatever `x` is (42_index_memory.md R105). -/
theorem execLoadRegs_getV_of_le {x q : RegIx} (h : execLoadRegs x s = .next t) (hq : x ≤ q) :
    t.getV q = s.getV q := by
  cases h
  exact (s.getV_loadFrom _ _ x.isLt.le q).trans (if_neg (Nat.not_lt.mpr hq))

/-! ### The invariant -/

/-- No instruction changes the font table (00_scope.md R6). -/
theorem exec_font (h : exec i s = .next t) : t.font = s.font :=
  exec_onlyWrites h .font (by cases i <;> simp [Instr.writes])

/-- Every instruction keeps memory canonical. -/
theorem exec_wf (h : exec i s = .next t) (hs : Memory.wf s.font s.mem = true) : Memory.wf t.font t.mem = true := by
  cases i
  case ldB x => cases h; exact State.writeBytes_wf _ _ _ hs
  case storeRegs x => cases h; exact State.writeBytes_wf _ _ _ hs
  all_goals
    have hm : t.mem = s.mem := exec_onlyWrites h .mem (by simp [Instr.writes])
    rwa [exec_font h, hm]

/-- An instruction leaves `status`, or records one of the two stack faults (60_exceptions.md R132, R135). -/
theorem exec_status (h : exec i s = .next t) :
    t.status = s.status ∨ t.status = .faulted .stackOverflow ∨ t.status = .faulted .stackUnderflow := by
  cases i
  case ret => obtain ⟨-, rfl⟩ | ⟨k, hk, -, rfl⟩ := execRet_next h <;> simp
  case call nnn => obtain ⟨-, rfl⟩ | ⟨hs, rfl⟩ := execCall_next h <;> simp
  all_goals exact .inl (exec_onlyWrites h .status (by simp [Instr.writes]))

theorem exec_inv (h : exec i s = .next t) (hs : s.Inv) : t.Inv := by
  obtain ⟨hwf, hst⟩ := hs
  refine ⟨exec_wf h hwf, ?_⟩
  obtain e | e | e := exec_status h <;> simp [e, hst]

theorem State.Inv.advance (hs : s.Inv) : s.advance.Inv := hs

theorem step_inv (h : step s = .next t) (hs : s.Inv) : t.Inv := exec_inv (step_next h).2 hs.advance

theorem step_font (h : step s = .next t) : t.font = s.font := (exec_font (step_next h).2).trans s.advance_font

theorem resetWith_inv (f : Font) : (State.resetWith f).Inv := ⟨Memory.reset_wf f, by simp [State.resetWith]⟩

theorem doReset_inv (s : State) : s.doReset.Inv := resetWith_inv s.font

end

/-- Settles O36: the decoded instruction keeps memory canonical, records no fault but the two of the stack, and leaves the
font; the advance touches none of these. -/
theorem stepKeepsTheInvariant : Obligations.StepKeepsTheInvariant :=
  ⟨fun _ _ hs h => step_inv h hs, fun _ _ h => step_font h⟩

/-- Settles O37: Reset lists no memory cell and sets `status` to Running. -/
theorem resetMeetsTheInvariant : Obligations.ResetMeetsTheInvariant := by
  refine ⟨resetWith_inv defaultFont, resetWith_inv, fun s t r h => ?_⟩
  cases h
  exact doReset_inv s

/-- Settles O46: no instruction lists the keys among its writes. -/
theorem noInstructionWritesAKey : Obligations.NoInstructionWritesAKey := by
  intro i s t h
  exact exec_onlyWrites h .keys (by cases i <;> simp [Instr.writes])

/-- Settles O47: DT and ST are each in the writes of one instruction only. -/
theorem onlyTimerLoadsWriteTimers : Obligations.OnlyTimerLoadsWriteTimers := by
  intro i s t h
  constructor
  · intro hi
    exact exec_onlyWrites h .dt (by cases i <;> simp_all [Instr.writes])
  · intro hi
    exact exec_onlyWrites h .st (by cases i <;> simp_all [Instr.writes])

/-- Settles O48: `I` is in the writes of the five excluded instructions only. -/
theorem indexRegisterWriters : Obligations.IndexRegisterWriters := by
  intro i s t h hLdI hAddI hLdF hStore hLoad
  exact exec_onlyWrites h .i (by cases i <;> simp_all [Instr.writes])

/-- Settles O50: the display is in the writes of CLS and DRW only. -/
theorem displayWriters : Obligations.DisplayWriters := by
  intro i s t h hCls hDrw
  exact exec_onlyWrites h .pix (by cases i <;> simp_all [Instr.writes])

/-- Settles O51: by the inversions of CALL and RET; no other instruction writes `sp` or the stack. -/
theorem stackWriters : Obligations.StackWriters := by
  intro i s t h
  cases i
  case ret =>
    obtain ⟨-, rfl⟩ | ⟨k, hk, hs, rfl⟩ := execRet_next h
    · simp
    · simp [hs]
  case call nnn =>
    obtain ⟨-, rfl⟩ | ⟨hs, rfl⟩ := execCall_next h
    · simp
    · have hset (j : Fin 16) (hj : j.val ≠ s.sp.val) : (s.stack.set s.sp.val s.pc)[j] = s.stack[j] :=
        Vector.getElem_set_ne _ _ hj.symm
      simpa using hset
  all_goals
    have hsp : t.sp = s.sp := exec_onlyWrites h .sp (by simp [Instr.writes])
    have hst : t.stack = s.stack := exec_onlyWrites h .stack (by simp [Instr.writes])
    simp [hsp, hst]

/-- Settles O52: the six skips by `State.skipIf_pc`, and no instruction outside the ten writes `pc`. -/
theorem programCounterWriters : Obligations.ProgramCounterWriters := by
  intro i s t h
  cases i
  case ret | jp | call | jpV0 => trivial
  case seImm | sneImm | seReg | sneReg | skp | sknp => cases h; exact s.skipIf_pc _
  all_goals exact exec_onlyWrites h .pc (by simp [Instr.writes])

/-- Settles O53: a write to a destination other than VF leaves VF; LD Vx,[I] stops below `Vx`, so below VF; the other
instructions write no general register. -/
theorem flagRegisterWriters : Obligations.FlagRegisterWriters := by
  intro i s t h
  cases i
  case addReg | subReg | shr | subnReg | shl | drw => trivial
  case ldImm | addImm | ldReg | orReg | andReg | xorReg | rnd | ldVxDt =>
    intro hx
    cases h
    exact State.getV_setV_other _ _ _ _ hx.symm
  case ldVxK x => exact fun hx => execLdVxK_getV_other h hx.symm
  case loadRegs x => exact execLoadRegs_getV_of_le h (Fin.le_last x)
  all_goals exact State.getV_congr _ _ (exec_onlyWrites h .v (by simp [Instr.writes])) _

end Sys2Proof.Machine
end

section
/-! Memory (spec/20_memory.md): the word of two bytes as a number, what the two answers of LoadRom leave behind, and the
bytes LD [I],Vx stores. -/

namespace Sys2Proof

/-- A word is 256 times its high byte plus its low byte (20_memory.md R33). -/
theorem wordOfBytes_toNat (hi lo : Byte) : (wordOfBytes hi lo).toNat = 256 * hi.toNat + lo.toNat := by
  calc (wordOfBytes hi lo).toNat
      = hi.toNat <<< 8 ||| lo.toNat := BitVec.toNat_append hi lo
    _ = hi.toNat <<< 8 + lo.toNat := (Nat.shiftLeft_add_eq_or_of_lt lo.isLt _).symm
    _ = 256 * hi.toNat + lo.toNat := by rw [Nat.shiftLeft_eq, Nat.mul_comm]

end Sys2Proof

namespace Sys2Proof.Machine

section
variable {s t : State} {image : List Byte}

/-! ### LoadRom -/

theorem operate_loadRom_tooLarge (h : image.length > 3584) :
    operate s (.loadRom image) = .next (s, .romTooLarge) := by
  simp [operate, (s.loadRom?_none image).mpr h]

theorem operate_loadRom_ok (h : image.length ≤ 3584) :
    operate s (.loadRom image) = .next (s.writeBytes Config.loadOffset image, .ok) := by
  simp [operate, s.loadRom?_some image h]

/-- An image that ends below the top of memory does not wrap round: it touches no cell outside its own range
(20_memory.md R42). -/
theorem not_touches_of_outside {base n a : Nat} (hn : base + n ≤ 4096) (ha : a < 4096)
    (hout : a < base ∨ base + n ≤ a) : ¬ Touches base n a := by
  rintro ⟨k, hk, e⟩
  simp only [cellOf, Config.memSize] at e
  omega

/-! ### LD [I],Vx -/

/-- LD [I],Vx stores each register below `Vx` at its own offset from the old `I` (42_index_memory.md R104). -/
theorem readByte_execStoreRegs {x r : RegIx} (h : execStoreRegs x s = .next t)
    (hs : Memory.wf s.font s.mem = true) (hr : r < x) : t.readByte (s.i.toNat + r.val) = s.getV r := by
  have hlen : (s.firstRegs x.val).length = x.val := s.firstRegs_length x.val x.isLt.le
  have hk : r.val < (s.firstRegs x.val).length := hlen.symm ▸ hr
  have hmax : (s.firstRegs x.val).length ≤ Config.memSize := by simp only [hlen, Config.memSize]; omega
  cases h
  calc (s.writeBytes s.i.toNat (s.firstRegs x.val)).readByte (s.i.toNat + r.val)
      = (s.firstRegs x.val)[r.val] := State.readByte_writeBytes_at _ s s.i.toNat r.val hs hmax hk
    _ = s.getV r := s.firstRegs_getElem x.val r.val hk r.isLt

end

/-- Settles O40: the image is written from 0x200 on, and one of at most 3584 bytes does not wrap round. -/
theorem loadRomCopiesOrFails : Obligations.LoadRomCopiesOrFails := by
  intro s image hs
  refine ⟨operate_loadRom_tooLarge, fun hlen => ⟨_, operate_loadRom_ok hlen, ?_, ?_, s.writeBytes_eq image _⟩⟩
  · intro j hj
    exact State.readByte_writeBytes_at image s 0x200 j hs (by simp only [Config.memSize]; omega) hj
  · intro a ha hout
    exact State.readByte_writeBytes_other image s 0x200 a hs (not_touches_of_outside (by omega) ha hout)

/-- Settles O49: memory is in the writes of LD B and LD [I],Vx only, and the font in those of none. -/
theorem memoryWriters : Obligations.MemoryWriters := by
  intro i s t h hLdB hStore
  have hmem : t.mem = s.mem := exec_onlyWrites h .mem (by cases i <;> simp_all [Instr.writes])
  exact ⟨hmem, State.readByte_congr s t (exec_font h) hmem⟩

/-- Settles O55: by `wordOfBytes_toNat`; each of the two addresses is masked on its own. -/
theorem fetchIsMaskedBigEndian : Obligations.FetchIsMaskedBigEndian :=
  fun s => wordOfBytes_toNat (s.readByte s.pc.toNat) (s.readByte (s.pc.toNat + 1))

/-- Settles O56: the two bytes fetched are the first two stored, V0 and V1. -/
theorem storeIsSeenByTheNextFetch : Obligations.StoreIsSeenByTheNextFetch := by
  intro x s t hs hx hpc h
  have htpc : t.pc = s.i := (execStoreRegs_onlyWrites h .pc (by simp)).trans hpc
  have hV0 : t.readByte t.pc.toNat = s.getV 0 := htpc ▸ readByte_execStoreRegs h hs (r := 0) (Nat.zero_lt_of_lt hx)
  have hV1 : t.readByte (t.pc.toNat + 1) = s.getV 1 := htpc ▸ readByte_execStoreRegs h hs (r := 1) hx
  exact congrArg₂ wordOfBytes hV0 hV1

end Sys2Proof.Machine
end

section
/-! The fields of a word (spec/30_encoding.md R52): their values, that they put the word together again, and that a mask
acts on each of the four digits. -/

namespace Sys2Proof

/-! ### The fields of a word (R52) -/

section
variable (op : Word)

theorem fieldType_toNat : (fieldType op).toNat = op.toNat / 4096 := by
  simp only [fieldType, BitVec.extractLsb'_toNat, Nat.shiftRight_eq_div_pow]
  omega

theorem fieldX_val : (fieldX op).val = op.toNat / 256 % 16 :=
  (BitVec.extractLsb'_toNat 8 4 op).trans (by rw [Nat.shiftRight_eq_div_pow])

theorem fieldY_val : (fieldY op).val = op.toNat / 16 % 16 :=
  (BitVec.extractLsb'_toNat 4 4 op).trans (by rw [Nat.shiftRight_eq_div_pow])

theorem fieldN_val : (fieldN op).val = op.toNat % 16 := BitVec.extractLsb'_toNat 0 4 op

theorem fieldKk_toNat : (fieldKk op).toNat = op.toNat % 256 := BitVec.extractLsb'_toNat 0 8 op

theorem fieldNnn_toNat : (fieldNnn op).toNat = op.toNat % 4096 := BitVec.extractLsb'_toNat 0 12 op

theorem highByte_eq : highByte op = fieldType op ++ nibbleOf (fieldX op) :=
  (BitVec.extractLsb'_append_extractLsb'_eq_extractLsb' (x := op) (start₁ := 8) (len₁ := 4) (len₂ := 4) rfl).symm

theorem lowByte_eq : lowByte op = nibbleOf (fieldY op) ++ nibbleOf (fieldN op) :=
  (BitVec.extractLsb'_append_extractLsb'_eq_extractLsb' (x := op) (start₁ := 0) (len₁ := 4) (len₂ := 4) rfl).symm

theorem fieldNnn_eq : fieldNnn op = nibbleOf (fieldX op) ++ fieldKk op :=
  (BitVec.extractLsb'_append_extractLsb'_eq_extractLsb' (x := op) (start₁ := 0) (len₁ := 8) (len₂ := 4) rfl).symm

/-! ### A word is put together from its fields -/

theorem wordA_fields : wordA (fieldType op) (fieldNnn op) = op :=
  calc fieldType op ++ fieldNnn op
      = op.extractLsb' 0 16 := BitVec.extractLsb'_append_extractLsb'_eq_extractLsb' rfl
    _ = op := BitVec.extractLsb'_eq_self

theorem wordXK_fields : wordXK (fieldType op) (nibbleOf (fieldX op)) (fieldKk op) = op :=
  calc fieldType op ++ nibbleOf (fieldX op) ++ fieldKk op
      = highByte op ++ lowByte op := by rw [highByte_eq]; rfl
    _ = op := wordOfBytes_bytes op

theorem wordXYN_fields :
    wordXYN (fieldType op) (nibbleOf (fieldX op)) (nibbleOf (fieldY op)) (nibbleOf (fieldN op)) = op :=
  calc fieldType op ++ nibbleOf (fieldX op) ++ nibbleOf (fieldY op) ++ nibbleOf (fieldN op)
      = op.extractLsb' 4 12 ++ nibbleOf (fieldN op) :=
        congrArg (· ++ nibbleOf (fieldN op)) (by
          rw [← highByte_eq]; exact BitVec.extractLsb'_append_extractLsb'_eq_extractLsb' rfl)
    _ = op.extractLsb' 0 16 := BitVec.extractLsb'_append_extractLsb'_eq_extractLsb' rfl
    _ = op := BitVec.extractLsb'_eq_self

end

/-- Settles O2: each field is an extraction, and adjacent extractions append to one. -/
theorem fieldsOfAWord : Obligations.FieldsOfAWord := fun op =>
  ⟨fieldType_toNat op, fieldX_val op, fieldY_val op, fieldN_val op, fieldKk_toNat op, fieldNnn_toNat op, highByte_eq op,
    lowByte_eq op, rfl, fieldNnn_eq op⟩

/-- Masking a word of four digits masks each digit. -/
theorem wordXYN_and (t x y n t' x' y' n' : Nibble) :
    wordXYN t x y n &&& wordXYN t' x' y' n' = wordXYN (t &&& t') (x &&& x') (y &&& y') (n &&& n') := by
  calc (t ++ x ++ y ++ n) &&& (t' ++ x' ++ y' ++ n')
      = ((t ++ x ++ y) &&& (t' ++ x' ++ y')) ++ (n &&& n') := BitVec.and_append
    _ = (t &&& t') ++ (x &&& x') ++ (y &&& y') ++ (n &&& n') := by rw [BitVec.and_append, BitVec.and_append]

end Sys2Proof
end

section
/-! Decoding (spec/30_encoding.md): decoding loses the ignored bits of a word and no others (R58), and from that the opcode
map (R56), the table of unmapped words (R59) and the encoder are shown to agree with the decoder. -/

namespace Sys2Proof

open Machine (usedBits)

/-! ### The word of an instruction, from the fields of the word it was decoded from -/

section
variable {op : Word} {t n : Nibble} {kk : Byte}

theorem wordA_of_type (ht : fieldType op = t) : wordA t (fieldNnn op) = op &&& 0xFFFF :=
  calc wordA t (fieldNnn op) = op := ht ▸ wordA_fields op
    _ = op &&& 0xFFFF := BitVec.and_allOnes.symm

theorem wordXK_of_type (ht : fieldType op = t) : wordXK t (nibbleOf (fieldX op)) (fieldKk op) = op &&& 0xFFFF :=
  calc wordXK t (nibbleOf (fieldX op)) (fieldKk op) = op := ht ▸ wordXK_fields op
    _ = op &&& 0xFFFF := BitVec.and_allOnes.symm

theorem wordXK_of_selector (ht : fieldType op = t) (hk : fieldKk op = kk) :
    wordXK t (nibbleOf (fieldX op)) kk = op &&& 0xFFFF :=
  hk ▸ wordXK_of_type ht

theorem wordXYN_of_type (ht : fieldType op = t) :
    wordXYN t (nibbleOf (fieldX op)) (nibbleOf (fieldY op)) (nibbleOf (fieldN op)) = op &&& 0xFFFF :=
  calc wordXYN t (nibbleOf (fieldX op)) (nibbleOf (fieldY op)) (nibbleOf (fieldN op))
      = op := ht ▸ wordXYN_fields op
    _ = op &&& 0xFFFF := BitVec.and_allOnes.symm

theorem wordXYN_of_selector (ht : fieldType op = t) (hn : nibbleOf (fieldN op) = n) :
    wordXYN t (nibbleOf (fieldX op)) (nibbleOf (fieldY op)) n = op &&& 0xFFFF :=
  hn ▸ wordXYN_of_type ht

/-- The masks of `usedBits` and of R59 act on the four digits of a word one by one. -/
theorem and_wordXYN (op : Word) (t x y n : Nibble) : op &&& wordXYN t x y n =
    wordXYN (fieldType op &&& t) (nibbleOf (fieldX op) &&& x) (nibbleOf (fieldY op) &&& y) (nibbleOf (fieldN op) &&& n) :=
  calc op &&& wordXYN t x y n
      = wordXYN (fieldType op) (nibbleOf (fieldX op)) (nibbleOf (fieldY op)) (nibbleOf (fieldN op)) &&& wordXYN t x y n := by
        rw [wordXYN_fields]
    _ = _ := wordXYN_and ..

/-- Types 5 and 9 ignore `n` (30_encoding.md R58). -/
theorem wordXYN_ignoring_n (ht : fieldType op = t) :
    wordXYN t (nibbleOf (fieldX op)) (nibbleOf (fieldY op)) 0 = op &&& 0xFFF0 := by
  have hmask : (0xFFF0 : Word) = wordXYN (BitVec.allOnes 4) (BitVec.allOnes 4) (BitVec.allOnes 4) 0#4 := rfl
  simp only [hmask, and_wordXYN, ht, BitVec.and_allOnes, BitVec.and_zero]
  rfl

/-- SHR and SHL ignore `y` (30_encoding.md R58). -/
theorem wordXYN_ignoring_y (ht : fieldType op = t) (hn : nibbleOf (fieldN op) = n) :
    wordXYN t (nibbleOf (fieldX op)) 0 n = op &&& 0xFF0F := by
  have hmask : (0xFF0F : Word) = wordXYN (BitVec.allOnes 4) (BitVec.allOnes 4) 0#4 (BitVec.allOnes 4) := rfl
  simp only [hmask, and_wordXYN, ht, hn, BitVec.and_allOnes, BitVec.and_zero]
  rfl

end

/-! ### Every word decodes to an instruction that stands for it -/

/-- The table of R59, as a disjunction of its rows. -/
theorem isUnmapped_iff (op : Word) : isUnmapped op = true ↔
    (op &&& 0xF000 = 0x0000 ∧ op ≠ 0x00E0 ∧ op ≠ 0x00EE) ∨ (op &&& 0xF000 = 0x8000 ∧ op &&& 0x000F ∈ unmappedType8) ∨
    (op &&& 0xF000 = 0xE000 ∧ op &&& 0x00FF ≠ 0x9E ∧ op &&& 0x00FF ≠ 0xA1) ∨
    (op &&& 0xF000 = 0xF000 ∧ op &&& 0x00FF ∉ mappedTypeF) := by
  simp only [isUnmapped, Bool.or_eq_true, Bool.and_eq_true, beq_iff_eq, bne_iff_ne, Bool.not_eq_true',
    ← Bool.not_eq_true, List.contains_iff_mem, or_assoc, and_assoc]

/-- `i` stands for the word `op`: it is well formed, and encodes to `op` with the bits it ignores cleared. -/
structure Instr.StandsFor (i : Instr) (op : Word) : Prop where
  wf : i.wf = true
  encode_eq : encode i = op &&& usedBits i

section
variable {op : Word} {t : Nibble}

theorem standsFor_unmapped (h : isUnmapped op = true) : (Instr.unmapped op).StandsFor op :=
  ⟨h, BitVec.and_allOnes.symm⟩

theorem and_typeMask (ht : fieldType op = t) : op &&& 0xF000 = wordXYN t 0 0 0 := by
  have hmask : (0xF000 : Word) = wordXYN (BitVec.allOnes 4) 0#4 0#4 0#4 := rfl
  simp only [hmask, and_wordXYN, ht, BitVec.and_allOnes, BitVec.and_zero]
  rfl

theorem and_nMask (op : Word) : op &&& 0x000F = wordXYN 0 0 0 (nibbleOf (fieldN op)) := by
  have hmask : (0x000F : Word) = wordXYN 0#4 0#4 0#4 (BitVec.allOnes 4) := rfl
  simp only [hmask, and_wordXYN, BitVec.and_allOnes, BitVec.and_zero]
  rfl

theorem decodeType0_standsFor (ht : fieldType op = 0x0) : (decodeType0 op).StandsFor op := by
  unfold decodeType0
  split_ifs with hcls hret
  · exact ⟨rfl, (congrArg (wordA 0x0) hcls).symm.trans (wordA_of_type ht)⟩
  · exact ⟨rfl, (congrArg (wordA 0x0) hret).symm.trans (wordA_of_type ht)⟩
  · have hE0 : op ≠ 0x00E0 := fun h => hcls (h ▸ rfl)
    have hEE : op ≠ 0x00EE := fun h => hret (h ▸ rfl)
    exact standsFor_unmapped ((isUnmapped_iff op).mpr (.inl ⟨and_typeMask ht, hE0, hEE⟩))

/-- The selectors of type 8 that `decodeType8` does not name are those of R59. -/
theorem mem_unmappedType8 (n : RowCount) (hn : n.val ∉ [0x0, 0x1, 0x2, 0x3, 0x4, 0x5, 0x6, 0x7, 0xE]) :
    wordXYN 0 0 0 (nibbleOf n) ∈ unmappedType8 := by
  revert n
  decide

theorem decodeType8_standsFor (ht : fieldType op = 0x8) : (decodeType8 op).StandsFor op := by
  unfold decodeType8
  split <;> rename_i hn
  case h_7 | h_9 => exact ⟨rfl, wordXYN_ignoring_y ht (BitVec.eq_of_toNat_eq hn)⟩ -- SHR and SHL
  case h_10 => -- the selectors of no row
    have hsel : op &&& 0x000F ∈ unmappedType8 :=
      and_nMask op ▸ mem_unmappedType8 (fieldN op) (by simp only [List.mem_cons, List.not_mem_nil]; tauto)
    exact standsFor_unmapped ((isUnmapped_iff op).mpr (.inr (.inl ⟨and_typeMask ht, hsel⟩)))
  all_goals exact ⟨rfl, wordXYN_of_selector ht (BitVec.eq_of_toNat_eq hn)⟩

theorem decodeTypeE_standsFor (ht : fieldType op = 0xE) : (decodeTypeE op).StandsFor op := by
  unfold decodeTypeE
  split_ifs with hskp hsknp
  · exact ⟨rfl, wordXK_of_selector ht hskp⟩
  · exact ⟨rfl, wordXK_of_selector ht hsknp⟩
  · have h9E : op &&& 0x00FF ≠ 0x9E := fun h => hskp (fieldKk_of_selected h rfl)
    have hA1 : op &&& 0x00FF ≠ 0xA1 := fun h => hsknp (fieldKk_of_selected h rfl)
    exact standsFor_unmapped ((isUnmapped_iff op).mpr (.inr (.inr (.inl ⟨and_typeMask ht, h9E, hA1⟩))))

theorem decodeTypeF_standsFor (ht : fieldType op = 0xF) : (decodeTypeF op).StandsFor op := by
  unfold decodeTypeF
  split_ifs
  case neg =>
    have hsel : op &&& 0x00FF ∉ mappedTypeF := fun h => by
      have hk : fieldKk (op &&& 0x00FF) ∈ [0x07, 0x0A, 0x15, 0x18, 0x1E, 0x29, 0x33, 0x55, 0x65] :=
        List.mem_map_of_mem (f := fieldKk) h
      rw [← fieldKk_of_selected rfl rfl] at hk
      simp_all
    exact standsFor_unmapped ((isUnmapped_iff op).mpr (.inr (.inr (.inr ⟨and_typeMask ht, hsel⟩))))
  all_goals exact ⟨rfl, wordXK_of_selector ht ‹_›⟩

end

/-- Every word decodes to an instruction that stands for it; the cases are the types 0x0 to 0xF, in order. -/
theorem decode_standsFor (op : Word) : (decode op).StandsFor op := by
  have htype {t : Nibble} (h : (fieldType op).toNat = t.toNat) : fieldType op = t := BitVec.eq_of_toNat_eq h
  unfold decode
  split <;> rename_i ht
  · exact decodeType0_standsFor (htype ht)
  · exact ⟨rfl, wordA_of_type (htype ht)⟩
  · exact ⟨rfl, wordA_of_type (htype ht)⟩
  · exact ⟨rfl, wordXK_of_type (htype ht)⟩
  · exact ⟨rfl, wordXK_of_type (htype ht)⟩
  · exact ⟨rfl, wordXYN_ignoring_n (htype ht)⟩
  · exact ⟨rfl, wordXK_of_type (htype ht)⟩
  · exact ⟨rfl, wordXK_of_type (htype ht)⟩
  · exact decodeType8_standsFor (htype ht)
  · exact ⟨rfl, wordXYN_ignoring_n (htype ht)⟩
  · exact ⟨rfl, wordA_of_type (htype ht)⟩
  · exact ⟨rfl, wordA_of_type (htype ht)⟩
  · exact ⟨rfl, wordXK_of_type (htype ht)⟩
  · exact ⟨rfl, wordXYN_of_type (htype ht)⟩
  · exact decodeTypeE_standsFor (htype ht)
  · exact decodeTypeF_standsFor (htype (show _ = 15 by simp only [imp_false] at *; omega))

/-! ### The decoder against the opcode map (R56) and the table of unmapped words (R59) -/

/-- The fixed bits of its row are in the word of every well-formed instruction. -/
theorem Laws.FixedBits.statement : ∀ i : Instr, Statement i
  | .cls => cls | .ret => ret | .jp nnn => jp nnn | .call nnn => call nnn
  | .seImm x kk => seImm x kk | .sneImm x kk => sneImm x kk | .seReg x y => seReg x y
  | .ldImm x kk => ldImm x kk | .addImm x kk => addImm x kk
  | .ldReg x y => ldReg x y | .orReg x y => orReg x y | .andReg x y => andReg x y | .xorReg x y => xorReg x y
  | .addReg x y => addReg x y | .subReg x y => subReg x y | .shr x => shr x | .subnReg x y => subnReg x y | .shl x => shl x
  | .sneReg x y => sneReg x y | .ldI nnn => ldI nnn | .jpV0 nnn => jpV0 nnn | .rnd x kk => rnd x kk
  | .drw x y n => drw x y n | .skp x => skp x | .sknp x => sknp x
  | .ldVxDt x => ldVxDt x | .ldVxK x => ldVxK x | .ldDtVx x => ldDtVx x | .ldStVx x => ldStVx x
  | .addI x => addI x | .ldF x => ldF x | .ldB x => ldB x | .storeRegs x => storeRegs x | .loadRegs x => loadRegs x
  | .unmapped op => unmapped op

/-- The bits used by the instructions of a row: all but `n` in rows 7 and 19 and `y` in rows 16 and 18 (30_encoding.md R58). -/
def usedBitsOfRow (row : Nat) : Word :=
  if row = 7 ∨ row = 19 then 0xFFF0 else if row = 16 ∨ row = 18 then 0xFF0F else 0xFFFF

/-- No row has a fixed bit that its instructions ignore. -/
theorem usedBitsOfRow_and_mask : ∀ k : Fin opcodeMap.length,
    usedBitsOfRow (k.val + 1) &&& opcodeMap[k].1 = opcodeMap[k].1 := by
  decide

section
variable {op op' : Word} {i : Instr} {k l : Nat} {q r : Word × Word}

theorem not_selected_of_isUnmapped (h : isUnmapped op = true) (hr : r ∈ opcodeMap) : op &&& r.1 ≠ r.2 :=
  Laws.FixedBits.unmapped op h r hr

theorem usedBits_eq (i : Instr) : usedBits i = usedBitsOfRow i.row := by
  cases i <;> rfl

/-- An instruction depends on every fixed bit of its row. -/
theorem usedBits_and_mask (hi : i.row = k + 1) (hr : opcodeMap[k]? = some r) : usedBits i &&& r.1 = r.1 := by
  obtain ⟨hk, rfl⟩ := List.getElem?_eq_some_iff.mp hr
  rw [usedBits_eq, hi]
  exact usedBitsOfRow_and_mask ⟨k, hk⟩

/-- An instruction is an unmapped word, or its row is one of the 34 of the opcode map. -/
theorem unmapped_or_row (i : Instr) : (∃ op, i = .unmapped op) ∨ ∃ k r, i.row = k + 1 ∧ opcodeMap[k]? = some r := by
  cases i
  case unmapped op => exact .inl ⟨op, rfl⟩
  all_goals exact .inr ⟨_, _, rfl, rfl⟩

/-- The word of an instruction is selected by the instruction's row. -/
theorem Instr.StandsFor.selected (h : i.StandsFor op) (hi : i.row = k + 1) (hr : opcodeMap[k]? = some r) :
    op &&& r.1 = r.2 := by
  have hfix : encode i &&& r.1 = r.2 := by
    simpa only [Laws.FixedBits.Statement, hi, Nat.add_sub_cancel, hr] using Laws.FixedBits.statement i h.wf
  calc op &&& r.1 = op &&& (usedBits i &&& r.1) := by rw [usedBits_and_mask hi hr]
    _ = encode i &&& r.1 := by rw [h.encode_eq, BitVec.and_assoc]
    _ = r.2 := hfix

/-- A word decodes to itself as an unmapped word, or to an instruction of one of the 34 rows. -/
theorem decode_unmapped_or_row (op : Word) :
    (decode op = .unmapped op ∧ isUnmapped op = true) ∨ ∃ k r, (decode op).row = k + 1 ∧ opcodeMap[k]? = some r := by
  obtain ⟨op', hi⟩ | hrow := unmapped_or_row (decode op)
  · obtain ⟨hwf, henc⟩ := hi ▸ decode_standsFor op
    obtain rfl : op' = op := henc.trans BitVec.and_allOnes
    exact .inl ⟨hi, hwf⟩
  · exact .inr hrow

/-- Any two rows of the map differ in a bit that both fix. -/
theorem opcodeMap_pairwise : opcodeMap.Pairwise fun q r => q.2 &&& r.1 ≠ r.2 &&& q.1 := by
  decide

theorem not_selected_of_lt (hq : opcodeMap[k]? = some q) (hr : opcodeMap[l]? = some r) (hlt : k < l)
    (h : op &&& q.1 = q.2) : op &&& r.1 ≠ r.2 := by
  intro h'
  obtain ⟨hk, rfl⟩ := List.getElem?_eq_some_iff.mp hq
  obtain ⟨hl, rfl⟩ := List.getElem?_eq_some_iff.mp hr
  apply List.pairwise_iff_getElem.mp opcodeMap_pairwise k l hk hl hlt
  rw [← h, ← h', BitVec.and_assoc, BitVec.and_assoc, BitVec.and_comm opcodeMap[k].1]

/-- No two rows select one word. -/
theorem row_unique (hq : opcodeMap[k]? = some q) (hr : opcodeMap[l]? = some r) (h : op &&& q.1 = q.2)
    (h' : op &&& r.1 = r.2) : k = l :=
  le_antisymm (not_lt.mp fun hlt => not_selected_of_lt hr hq hlt h' h)
    (not_lt.mp fun hlt => not_selected_of_lt hq hr hlt h h')

/-- A word is the instruction of a row iff the row selects it (30_encoding.md R56). -/
theorem selected_iff_row (hr : opcodeMap[k]? = some r) : op &&& r.1 = r.2 ↔ (decode op).row = k + 1 := by
  refine ⟨fun h => ?_, fun hi => (decode_standsFor op).selected hi hr⟩
  obtain ⟨-, hun⟩ | ⟨l, q, hi, hq⟩ := decode_unmapped_or_row op
  · exact absurd h (not_selected_of_isUnmapped hun (List.mem_of_getElem? hr))
  · rw [hi, row_unique hq hr ((decode_standsFor op).selected hi hq) h]

theorem decode_eq_unmapped_of_not_selected (h : ∀ r ∈ opcodeMap, op &&& r.1 ≠ r.2) : decode op = .unmapped op := by
  obtain ⟨hun, -⟩ | ⟨l, q, hi, hq⟩ := decode_unmapped_or_row op
  · exact hun
  · exact absurd ((decode_standsFor op).selected hi hq) (h q (List.mem_of_getElem? hq))

theorem isUnmapped_iff_decode : isUnmapped op = true ↔ decode op = .unmapped op := by
  constructor
  · exact fun h => decode_eq_unmapped_of_not_selected fun r => not_selected_of_isUnmapped h
  · exact fun h => (h ▸ decode_standsFor op).wf

theorem decode_row_eq_35_iff : (decode op).row = 35 ↔ isUnmapped op = true := by
  constructor
  · intro h
    obtain ⟨-, hun⟩ | ⟨l, q, hi, hq⟩ := decode_unmapped_or_row op
    · exact hun
    · obtain rfl : l = 34 := by omega
      cases hq
  · intro h
    rw [isUnmapped_iff_decode.mp h]
    rfl

/-! ### Decoding an encoded instruction -/

theorem decode_encode (h : i.wf = true) : decode (encode i) = i := by
  cases i
  case unmapped op => exact isUnmapped_iff_decode.mp h
  case cls | ret => rfl
  case jp | call | ldI | jpV0 => simp [encode, decode]
  case seImm | sneImm | ldImm | addImm | rnd => simp [encode, decode]
  case seReg | sneReg | drw => simp [encode, decode]
  case skp | sknp => simp [encode, decode, decodeTypeE]
  case ldVxDt | ldVxK | ldDtVx | ldStVx | addI | ldF | ldB | storeRegs | loadRegs => simp [encode, decode, decodeTypeF]
  all_goals simp [encode, decode, decodeType8]

/-- Two words that agree in the bits the one's instruction depends on are one instruction (30_encoding.md R58). -/
theorem decode_congr (h : op &&& usedBits (decode op) = op' &&& usedBits (decode op)) : decode op' = decode op := by
  have hop := decode_standsFor op
  have hop' := decode_standsFor op'
  obtain ⟨hun, -⟩ | ⟨k, r, hi, hr⟩ := decode_unmapped_or_row op
  · have hu : usedBits (decode op) = BitVec.allOnes 16 := by rw [hun]; rfl
    rw [hu, BitVec.and_allOnes, BitVec.and_allOnes] at h
    rw [h]
  · have hsel : op' &&& r.1 = r.2 :=
      calc op' &&& r.1 = op' &&& usedBits (decode op) &&& r.1 := by rw [BitVec.and_assoc, usedBits_and_mask hi hr]
        _ = op &&& r.1 := by rw [← h, BitVec.and_assoc, usedBits_and_mask hi hr]
        _ = r.2 := hop.selected hi hr
    have hrow : (decode op').row = (decode op).row := ((selected_iff_row hr).mp hsel).trans hi.symm
    have hused : usedBits (decode op') = usedBits (decode op) := by rw [usedBits_eq, usedBits_eq, hrow]
    have henc : encode (decode op') = encode (decode op) := by rw [hop'.encode_eq, hop.encode_eq, hused, h]
    calc decode op' = decode (encode (decode op')) := (decode_encode hop'.wf).symm
      _ = decode (encode (decode op)) := by rw [henc]
      _ = decode op := decode_encode hop.wf

end

/-- Settles O6: the mapped instructions field by field; an unmapped word decodes to itself because no row selects it. -/
theorem decodeOfEncode : Obligations.DecodeOfEncode := by
  intro i hi
  have hdec : decode (encode i) = i := decode_encode hi
  exact ⟨hdec, fun rest => by rw [decodeBytes_encodeBytes, hdec]⟩

/-- Settles O3: a decoded instruction has its row's fixed bits, and two rows differ in a bit both fix. -/
theorem opcodeMapSelectsTheRow : Obligations.OpcodeMapSelectsTheRow :=
  ⟨fun _ _ _ hr => selected_iff_row hr, fun _ _ _ _ _ => row_unique, rfl, fun _ => decode_eq_unmapped_of_not_selected⟩

/-- Settles O4: words that agree in the bits used are selected by one row, and encoding is injective there. -/
theorem onlyIgnoredBitsAreIgnored : Obligations.OnlyIgnoredBitsAreIgnored :=
  ⟨fun op => (decode_standsFor op).encode_eq, fun _ _ => decode_congr⟩

/-- Settles O5: the table of R59 lists the words that no row selects; only the no-op is of row 35. -/
theorem decodeIsTotal : Obligations.DecodeIsTotal := by
  intro op
  exact ⟨(decode_standsFor op).wf, isUnmapped_iff_decode, decode_row_eq_35_iff⟩

end Sys2Proof
end

section
/-! A Step completes (spec/30_encoding.md R51): it runs the decoded word at `pc`, every instruction answers a next state, and
a word placed at `pc` is the one that runs. -/

namespace Sys2Proof.Machine

theorem execRet_completes (s : State) : ∃ t, execRet s = .next t := by
  cases hs : s.sp.val with
  | zero => exact ⟨_, execRet_underflow hs⟩
  | succ k => exact ⟨_, execRet_pop hs (by omega)⟩

theorem execCall_completes (nnn : Imm12) (s : State) : ∃ t, execCall nnn s = .next t := by
  rcases Nat.lt_or_ge s.sp.val 16 with hs | hs
  · exact ⟨_, execCall_push nnn hs⟩
  · exact ⟨_, execCall_overflow nnn (by omega)⟩

theorem execLdVxK_completes (x : RegIx) (s : State) : ∃ t, execLdVxK x s = .next t := by
  unfold execLdVxK
  split <;> exact ⟨_, rfl⟩

/-- Every instruction answers a next state; the stack faults are taken, not answered (60_exceptions.md R133). -/
theorem exec_completes (i : Instr) (s : State) : ∃ t, exec i s = .next t := by
  cases i
  case ret => exact execRet_completes s
  case call nnn => exact execCall_completes nnn s
  case ldVxK x => exact execLdVxK_completes x s
  all_goals exact ⟨_, rfl⟩

theorem tableBytes_toNat (w : Word) : tableBytes 16 w.toNat = [highByte w, lowByte w] := by
  rw [tableBytes, Nat.mod_eq_of_lt w.isLt, BitVec.ofNat_toNat, BitVec.setWidth_eq]

/-- The two bytes of the placed word are read back at `pc`, each address masked separately. -/
theorem fetchWord_withFetchWord {s : State} (hs : Memory.wf s.font s.mem = true) (w : Word) :
    (s.withFetchWord 16 w.toNat).fetchWord = w := by
  have hpc : (s.withFetchWord 16 w.toNat).pc = s.pc := by rw [s.withFetchWord_eq]
  have hread (k : Nat) (hk : k < 2) :
      (s.withFetchWord 16 w.toNat).readByte (s.pc.toNat + k) = [highByte w, lowByte w][k] :=
    calc (s.withFetchWord 16 w.toNat).readByte (s.pc.toNat + k)
        = (s.writeBytes s.pc.toNat [highByte w, lowByte w]).readByte (s.pc.toNat + k) := by
          rw [← tableBytes_toNat]; rfl
      _ = [highByte w, lowByte w][k] := State.readByte_writeBytes_at [_, _] s s.pc.toNat k hs (show 2 ≤ 4096 by decide) hk
  calc (s.withFetchWord 16 w.toNat).fetchWord = wordOfBytes (highByte w) (lowByte w) := by
        rw [State.fetchWord, hpc]
        exact congrArg₂ wordOfBytes (hread 0 (by decide)) (hread 1 (by decide))
    _ = w := wordOfBytes_bytes w

/-- Settles O35: by `exec_completes`, on the decoded instruction. -/
theorem runningStepCompletes : Obligations.RunningStepCompletes := by
  refine ⟨exec_completes, fun s hs => ?_⟩
  rw [step_running hs]
  exact exec_completes _ _

/-- Settles O60: the placed word is fetched, and a machine with a word placed is Running. -/
theorem placedWordRuns : Obligations.PlacedWordRuns := by
  intro s w hs
  have hfetch := fetchWord_withFetchWord hs w
  have hrun : (s.withFetchWord 16 w.toNat).status = .running := rfl
  exact ⟨hfetch, by rw [step_running hrun, hfetch]⟩

/-- Settles O1: the two bytes decoded are those of the fetched word, and the advance adds 2 to `pc`. -/
theorem stepRunsTheDecodedInstruction : Obligations.StepRunsTheDecodedInstruction := by
  refine fun s => ⟨fun i hs hdec => ?_, fun c => step_faulted⟩
  have hi : decode s.fetchWord = i := by
    rw [decodeBytes_cons] at hdec
    injection hdec with h
    exact congrArg Prod.fst h
  rw [step_running hs, hi]
  rfl

end Sys2Proof.Machine
end

section
/-! Control flow (spec/40_control_flow.md): the words that decode to the jumps, CALL, RET and the skips, what each does to
`pc`, `sp` and the stack, and that it changes nothing else. -/

namespace Sys2Proof

open Machine (Selects)

/-! ### Words selected by their type field -/

/-- A row of the opcode map with mask 0xF000 selects the words of one type. -/
theorem selects_of_type {mk : Word → Instr} (t : Nibble) (h : ∀ op, fieldType op = t → decode op = mk op) :
    Selects 0xF000 (wordXYN t 0 0 0) mk :=
  fun op hop => h op ((fieldType_of_selected hop rfl).trans (fieldType_wordXYN t 0 0 0))

section
variable {op : Word}

theorem decode_of_type1 (h : fieldType op = 0x1) : decode op = .jp (fieldNnn op) := by simp [decode, h]
theorem decode_of_type2 (h : fieldType op = 0x2) : decode op = .call (fieldNnn op) := by simp [decode, h]
theorem decode_of_type3 (h : fieldType op = 0x3) : decode op = .seImm (fieldX op) (fieldKk op) := by simp [decode, h]
theorem decode_of_type4 (h : fieldType op = 0x4) : decode op = .sneImm (fieldX op) (fieldKk op) := by simp [decode, h]
theorem decode_of_type5 (h : fieldType op = 0x5) : decode op = .seReg (fieldX op) (fieldY op) := by simp [decode, h]
theorem decode_of_type9 (h : fieldType op = 0x9) : decode op = .sneReg (fieldX op) (fieldY op) := by simp [decode, h]
theorem decode_of_typeB (h : fieldType op = 0xB) : decode op = .jpV0 (fieldNnn op) := by simp [decode, h]

end

/-- A row whose mask fixes every bit selects its match alone. -/
theorem selects_word (w : Word) : Selects 0xFFFF w (fun _ => decode w) :=
  fun op hop => congrArg decode ((BitVec.and_allOnes (x := op)).symm.trans hop)

end Sys2Proof

namespace Sys2Proof.Machine

/-! ### Immediates and registers widened to 16 bits -/

@[simp] theorem addrOfImm_toNat (nnn : Imm12) : (addrOfImm nnn).toNat = nnn.toNat :=
  BitVec.toNat_setWidth_of_le (by decide)

@[simp] theorem wordOfByte_toNat (b : Byte) : (wordOfByte b).toNat = b.toNat :=
  BitVec.toNat_setWidth_of_le (by decide)

/-- The target of JP V0,nnn is at most 0x10FE, so the 16-bit sum is the exact one (40_control_flow.md R78). -/
theorem addrOfImm_add_wordOfByte_toNat (nnn : Imm12) (b : Byte) :
    (addrOfImm nnn + wordOfByte b).toNat = nnn.toNat + b.toNat := by
  have hn := nnn.isLt
  have hb := b.isLt
  rw [BitVec.toNat_add, addrOfImm_toNat, wordOfByte_toNat, Nat.mod_eq_of_lt (by omega)]

/-! ### What a jump, a skip and a push leave unchanged -/

section
variable (s : State) {i : Instr} {c : Bool} {p : Prop}

theorem onlyPc_setPc (w : Word) : OnlyPc s (s.setPc w) := ⟨rfl, fun _ => rfl⟩

theorem onlyPc_skipIf (c : Bool) : OnlyPc s (s.skipIf c) := by
  rw [s.skipIf_eq c]
  exact onlyPc_setPc s _

/-- An instruction that skips on a Boolean test of the condition `p` adds 2 to `npc` iff `p` holds, and writes `pc` only
(40_control_flow.md R77). -/
theorem skips_of_iff [Decidable p] (hi : exec i s = .next (s.skipIf c)) (hc : c = true ↔ p) :
    ∃ t, exec i s = .next t ∧ (t.pc = if p then s.pc + 2 else s.pc) ∧ OnlyPc s t := by
  refine ⟨_, hi, ?_, onlyPc_skipIf s c⟩
  simp only [s.skipIf_eq c, hc]

/-- A push changes the entry at `sp` and no other (40_control_flow.md R72). -/
theorem getElem_stack_set (hs : s.sp.val < 16) (w : Word) (j : Fin 16) :
    (s.stack.set s.sp.val w)[j] = if j.val = s.sp.val then w else s.stack[j] := by
  simp only [Fin.getElem_fin, Vector.getElem_set, eq_comm]

end

/-! ### The obligations -/

/-- Settles O8: by the two equations of RET, `execRet_pop` and `execRet_underflow`. -/
theorem returnPopsTheStack : Obligations.ReturnPopsTheStack := by
  refine ⟨selects_word 0x00EE, fun s => ⟨fun k hk hs => ?_, execRet_underflow⟩⟩
  exact ⟨_, execRet_pop hs hk, rfl, rfl, rfl, fun _ => rfl⟩

/-- Settles O9: both jumps are a `setPc`; the sum of JP V0,nnn does not reach 65536. -/
theorem jumpsSetPc : Obligations.JumpsSetPc := by
  refine ⟨selects_of_type 0x1 fun _ => decode_of_type1, selects_of_type 0xB fun _ => decode_of_typeB, fun nnn s => ?_⟩
  constructor
  · exact ⟨_, rfl, addrOfImm_toNat nnn, onlyPc_setPc s _⟩
  · exact ⟨_, rfl, addrOfImm_add_wordOfByte_toNat nnn (s.getV 0), onlyPc_setPc s _⟩

/-- Settles O10: by the two equations of CALL, `execCall_push` and `execCall_overflow`. -/
theorem callPushesTheReturnAddress : Obligations.CallPushesTheReturnAddress := by
  refine ⟨selects_of_type 0x2 fun _ => decode_of_type2, fun nnn s => ⟨fun hs => ?_, execCall_overflow nnn⟩⟩
  exact ⟨_, execCall_push nnn hs, addrOfImm_toNat nnn, rfl, getElem_stack_set s hs s.pc, rfl, fun _ => rfl⟩

/-- Settles O11: SE and SNE skip on `==` and `!=`. -/
theorem skipsOnAByte : Obligations.SkipsOnAByte :=
  ⟨selects_of_type 0x3 fun _ => decode_of_type3, selects_of_type 0x4 fun _ => decode_of_type4,
    fun _ _ s => ⟨skips_of_iff s rfl beq_iff_eq, skips_of_iff s rfl bne_iff_ne⟩⟩

/-- Settles O12: as O11, and the type alone selects the word, so its low nibble takes no part. -/
theorem skipsOnARegister : Obligations.SkipsOnARegister :=
  ⟨selects_of_type 0x5 fun _ => decode_of_type5, selects_of_type 0x9 fun _ => decode_of_type9,
    fun _ _ s => ⟨skips_of_iff s rfl beq_iff_eq, skips_of_iff s rfl bne_iff_ne⟩⟩

/-- Settles O13: a word of R59's table decodes to the no-op, so a Step on it is the advance alone. -/
theorem unmappedOpcodeIsANoOp : Obligations.UnmappedOpcodeIsANoOp := by
  refine ⟨fun op => isUnmapped_iff_decode.mp, fun op s => rfl, fun s hs hun => ?_⟩
  rw [step_running hs, isUnmapped_iff_decode.mp hun]
  rfl

/-- Settles O57: RET reads the entry CALL has just written, and counts `sp` back to it. -/
theorem returnUndoesCall : Obligations.ReturnUndoesCall := by
  intro nnn s w hs
  have htop : (s.stack.set s.sp.val s.pc)[s.sp.val] = s.pc := Vector.getElem_set_self hs
  have hret := execRet_pop (k := s.sp.val) (s := { s with
    pc := w, stack := s.stack.set s.sp.val s.pc, sp := ⟨s.sp.val + 1, Nat.succ_lt_succ hs⟩ }) rfl hs
  rw [htop] at hret
  exact ⟨_, _, execCall_push nnn hs, hret, rfl, rfl, getElem_stack_set s hs s.pc, rfl⟩

end Sys2Proof.Machine
end

section
/-! Arithmetic and logic (spec/41_arith_logic.md): the words that decode to these instructions, the one or two registers
each writes, the values of the results and the flags as numbers, and the draws of RND. -/

namespace Sys2Proof

open Machine (Selects)

section
variable {op : Word}

theorem decode_of_type6 (h : fieldType op = 0x6) : decode op = .ldImm (fieldX op) (fieldKk op) := by simp [decode, h]
theorem decode_of_type7 (h : fieldType op = 0x7) : decode op = .addImm (fieldX op) (fieldKk op) := by simp [decode, h]
theorem decode_of_type8 (h : fieldType op = 0x8) : decode op = decodeType8 op := by simp [decode, h]
theorem decode_of_typeC (h : fieldType op = 0xC) : decode op = .rnd (fieldX op) (fieldKk op) := by simp [decode, h]

/-- A row of type 8 of the opcode map selects the words of type 8 with one selector nibble (30_encoding.md R55). -/
theorem selects_of_type8 {mk : Word → Instr} (n : Nibble) (h : ∀ op, fieldN op = n.toFin → decodeType8 op = mk op) :
    Selects 0xF00F (wordXYN 0x8 0 0 n) mk := by
  intro op hop
  have htype : fieldType op = 0x8 := (fieldType_of_selected hop rfl).trans (fieldType_wordXYN 0x8 0 0 n)
  have hn : fieldN op = n.toFin := (fieldN_of_selected hop rfl).trans (fieldN_wordXYN 0x8 0 0 n)
  exact (decode_of_type8 htype).trans (h op hn)

theorem decodeType8_of_n0 (h : fieldN op = 0x0) : decodeType8 op = .ldReg (fieldX op) (fieldY op) := by
  simp [decodeType8, h]
theorem decodeType8_of_n1 (h : fieldN op = 0x1) : decodeType8 op = .orReg (fieldX op) (fieldY op) := by
  simp [decodeType8, h]
theorem decodeType8_of_n2 (h : fieldN op = 0x2) : decodeType8 op = .andReg (fieldX op) (fieldY op) := by
  simp [decodeType8, h]
theorem decodeType8_of_n3 (h : fieldN op = 0x3) : decodeType8 op = .xorReg (fieldX op) (fieldY op) := by
  simp [decodeType8, h]
theorem decodeType8_of_n4 (h : fieldN op = 0x4) : decodeType8 op = .addReg (fieldX op) (fieldY op) := by
  simp [decodeType8, h]
theorem decodeType8_of_n5 (h : fieldN op = 0x5) : decodeType8 op = .subReg (fieldX op) (fieldY op) := by
  simp [decodeType8, h]
theorem decodeType8_of_n6 (h : fieldN op = 0x6) : decodeType8 op = .shr (fieldX op) := by simp [decodeType8, h]
theorem decodeType8_of_n7 (h : fieldN op = 0x7) : decodeType8 op = .subnReg (fieldX op) (fieldY op) := by
  simp [decodeType8, h]
theorem decodeType8_of_nE (h : fieldN op = 0xE) : decodeType8 op = .shl (fieldX op) := by simp [decodeType8, h]

end

end Sys2Proof

namespace Sys2Proof.Machine

section
variable {i : Instr} {s : State} {x : RegIx} {b f : Byte} {R F : Byte → Prop}

/-! ### The registers an instruction writes -/

theorem onlyV_setV (s : State) (x : RegIx) (b : Byte) : OnlyV s (s.setV x b) := ⟨rfl, fun _ => rfl⟩

theorem onlyV_setFlagThenV (s : State) (f : Byte) (x : RegIx) (b : Byte) : OnlyV s (s.setFlagThenV f x b) :=
  ⟨rfl, fun _ => rfl⟩

/-- With `x = 15` the result overwrites the flag, so it is the result that `Vx` holds (41_arith_logic.md R80). -/
theorem getV_setFlagThenV_same (s : State) (f : Byte) (x : RegIx) (b : Byte) : (s.setFlagThenV f x b).getV x = b := by
  simp

theorem getV_setFlagThenV_flagReg (s : State) (f b : Byte) (hx : x ≠ flagReg) :
    (s.setFlagThenV f x b).getV flagReg = f := by
  simp [hx.symm]

theorem otherVF_setFlagThenV (s : State) (f : Byte) (x : RegIx) (b : Byte) : OtherVF s (s.setFlagThenV f x b) x := by
  intro r hx hF
  simp [hx, hF]

/-- An instruction that writes `b` to `Vx` leaves there whatever is known of `b`, and leaves all else alone. -/
theorem writesV (hi : exec i s = .next (s.setV x b)) (hb : R b) :
    ∃ t, exec i s = .next t ∧ R (t.getV x) ∧ OtherV s t x ∧ OnlyV s t :=
  ⟨_, hi, (s.getV_setV_same x b).symm ▸ hb, fun r => s.getV_setV_other x r b, onlyV_setV s x b⟩

/-- An instruction that writes the flag `f` and then `b` to `Vx` leaves there whatever is known of both, the flag only
if `x` is not 15, and leaves all else alone (41_arith_logic.md R80). -/
theorem writesFlagThenV (hi : exec i s = .next (s.setFlagThenV f x b)) (hb : R b) (hf : F f) :
    ∃ t, exec i s = .next t ∧ R (t.getV x) ∧ (x ≠ flagReg → F (t.getV flagReg)) ∧ OtherVF s t x ∧ OnlyV s t :=
  ⟨_, hi, (getV_setFlagThenV_same s f x b).symm ▸ hb, fun hx => (getV_setFlagThenV_flagReg s f b hx).symm ▸ hf,
    otherVF_setFlagThenV s f x b, onlyV_setFlagThenV s f x b⟩

end

/-! ### Results and flags as numbers -/

section
variable (a b : Byte)

theorem sub_toNat_eq : (a - b).toNat = (a.toNat + 256 - b.toNat) % 256 := by
  have hb := b.isLt
  rw [BitVec.toNat_sub]
  omega

theorem carryFlag_eq : carryFlag a b = if a.toNat + b.toNat > 255 then 1 else 0 := by
  simp [carryFlag, flagByte]

theorem greaterFlag_eq : greaterFlag a b = if a.toNat > b.toNat then 1 else 0 := by
  simp [greaterFlag, flagByte]

theorem flagByte_toNat (c : Bool) : (flagByte c).toNat = c.toNat := by
  cases c <;> rfl

theorem lowBitFlag_toNat : (lowBitFlag a).toNat = a.toNat % 2 := by
  rw [lowBitFlag, flagByte_toNat, BitVec.getLsbD, Nat.toNat_testBit, Nat.pow_zero, Nat.div_one]

/-- Bit 7 is the last bit of a byte, so the quotient by 128 is below 2. -/
theorem highBitFlag_toNat : (highBitFlag a).toNat = a.toNat / 128 := by
  have ha := a.isLt
  rw [highBitFlag, flagByte_toNat, BitVec.getLsbD, Nat.toNat_testBit]
  omega

theorem shiftRight_one_toNat : (a >>> 1).toNat = a.toNat / 2 := by
  rw [BitVec.toNat_ushiftRight, Nat.shiftRight_eq_div_pow, Nat.pow_one]

theorem shiftLeft_one_toNat : (a <<< 1).toNat = a.toNat * 2 % 256 := by
  rw [BitVec.toNat_shiftLeft, Nat.shiftLeft_eq, Nat.pow_one]

end

/-! ### The obligations -/

/-- Settles O54: RND counts its draw, and no other instruction lists the counter among its writes. -/
theorem onlyRandomDraws : Obligations.OnlyRandomDraws := by
  intro i s t h
  cases i
  case rnd x kk => cases h; rfl
  all_goals exact exec_onlyWrites h .draws (by simp [Instr.writes])

/-- Settles O14: all three are one register write; the sum of bytes is taken modulo 256. -/
theorem loadsAndAddImmediate : Obligations.LoadsAndAddImmediate := by
  refine ⟨selects_of_type 0x6 fun _ => decode_of_type6, selects_of_type 0x7 fun _ => decode_of_type7,
    selects_of_type8 0x0 fun _ => decodeType8_of_n0, fun x y kk s => ⟨?_, ?_, ?_⟩⟩
  · exact writesV (R := (· = _)) rfl rfl
  · exact writesV (R := (·.toNat = _)) rfl (BitVec.toNat_add _ _)
  · exact writesV (R := (· = _)) rfl rfl

/-- Settles O15: one register write each; the library's bit operations on words act bit by bit. -/
theorem bitwiseLogic : Obligations.BitwiseLogic := by
  refine ⟨selects_of_type8 0x1 fun _ => decodeType8_of_n1, selects_of_type8 0x2 fun _ => decodeType8_of_n2,
    selects_of_type8 0x3 fun _ => decodeType8_of_n3, fun x y s => ⟨?_, ?_, ?_⟩⟩
  · exact writesV (R := fun v => ∀ k, v.getLsbD k = ((s.getV x).getLsbD k || (s.getV y).getLsbD k)) rfl
      fun _ => BitVec.getLsbD_or
  · exact writesV (R := fun v => ∀ k, v.getLsbD k = ((s.getV x).getLsbD k && (s.getV y).getLsbD k)) rfl
      fun _ => BitVec.getLsbD_and
  · exact writesV (R := fun v => ∀ k, v.getLsbD k = ((s.getV x).getLsbD k ^^ (s.getV y).getLsbD k)) rfl
      fun _ => BitVec.getLsbD_xor

/-- Settles O16: the carry, then the sum, both of the operands read before either write. -/
theorem addWithCarry : Obligations.AddWithCarry := by
  refine ⟨selects_of_type8 0x4 fun _ => decodeType8_of_n4, fun x y s => ?_⟩
  exact writesFlagThenV (R := (·.toNat = _)) (F := (· = _)) rfl (BitVec.toNat_add _ _) (carryFlag_eq _ _)

/-- Settles O17: the strict comparison, then the difference; SUBN is SUB with the operands exchanged. -/
theorem subtractWithStrictFlag : Obligations.SubtractWithStrictFlag := by
  refine ⟨selects_of_type8 0x5 fun _ => decodeType8_of_n5, selects_of_type8 0x7 fun _ => decodeType8_of_n7,
    fun x y s => ⟨?_, ?_⟩⟩
  · exact writesFlagThenV (R := (·.toNat = _)) (F := (· = _)) rfl (sub_toNat_eq _ _) (greaterFlag_eq _ _)
  · exact writesFlagThenV (R := (·.toNat = _)) (F := (· = _)) rfl (sub_toNat_eq _ _) (greaterFlag_eq _ _)

/-- Settles O18: the bit shifted out, then the shifted register; the type and `n` select the word, so `y` takes no part. -/
theorem shiftsByOne : Obligations.ShiftsByOne := by
  refine ⟨selects_of_type8 0x6 fun _ => decodeType8_of_n6, selects_of_type8 0xE fun _ => decodeType8_of_nE,
    fun x s => ⟨?_, ?_⟩⟩
  · exact writesFlagThenV (R := (·.toNat = _)) (F := (·.toNat = _)) rfl (shiftRight_one_toNat _) (lowBitFlag_toNat _)
  · exact writesFlagThenV (R := (·.toNat = _)) (F := (·.toNat = _)) rfl (shiftLeft_one_toNat _) (highBitFlag_toNat _)

/-- Settles O19: the draw is taken and counted, then written under the mask by one register write. -/
theorem randomByteUnderMask : Obligations.RandomByteUnderMask := by
  refine ⟨selects_of_type 0xC fun _ => decode_of_typeC, fun x kk s => ?_⟩
  have hother (r : RegIx) (hr : r ≠ x) : (s.drawByte.2.setV x (s.drawByte.1 &&& kk)).getV r = s.getV r :=
    s.drawByte.2.getV_setV_other x r _ hr
  exact ⟨_, rfl, s.drawByte.2.getV_setV_same x _, hother, rfl, fun _ => rfl⟩

end Sys2Proof.Machine
end

section
/-! The index register and memory (spec/42_index_memory.md): the words that decode to these instructions, what the three
writers of `I` alone and the two transfers leave in `I`, the digits LD B stores, and the registers LD Vx,[I] loads. -/

namespace Sys2Proof

open Machine (Selects)

section
variable {op : Word}

theorem decode_of_typeA (h : fieldType op = 0xA) : decode op = .ldI (fieldNnn op) := by simp [decode, h]
theorem decode_of_typeF (h : fieldType op = 0xF) : decode op = decodeTypeF op := by simp [decode, h]

/-- A row of type F of the opcode map selects the words of type F with one low byte (30_encoding.md R55). -/
theorem selects_of_typeF {mk : Word → Instr} (kk : Byte) (h : ∀ op, fieldKk op = kk → decodeTypeF op = mk op) :
    Selects 0xF0FF (wordXK 0xF 0 kk) mk := by
  intro op hop
  have htype : fieldType op = 0xF := (fieldType_of_selected hop rfl).trans (fieldType_wordXK 0xF 0 kk)
  have hkk : fieldKk op = kk := (fieldKk_of_selected hop rfl).trans (fieldKk_wordXK 0xF 0 kk)
  exact (decode_of_typeF htype).trans (h op hkk)

theorem decodeTypeF_of_kk1E (h : fieldKk op = 0x1E) : decodeTypeF op = .addI (fieldX op) := by simp [decodeTypeF, h]
theorem decodeTypeF_of_kk29 (h : fieldKk op = 0x29) : decodeTypeF op = .ldF (fieldX op) := by simp [decodeTypeF, h]
theorem decodeTypeF_of_kk33 (h : fieldKk op = 0x33) : decodeTypeF op = .ldB (fieldX op) := by simp [decodeTypeF, h]
theorem decodeTypeF_of_kk55 (h : fieldKk op = 0x55) : decodeTypeF op = .storeRegs (fieldX op) := by
  simp [decodeTypeF, h]
theorem decodeTypeF_of_kk65 (h : fieldKk op = 0x65) : decodeTypeF op = .loadRegs (fieldX op) := by
  simp [decodeTypeF, h]

end

end Sys2Proof

namespace Sys2Proof.Machine

section
variable {i : Instr} {s t : State} {w : Word} {R : Word → Prop} {x : RegIx}

/-! ### What the writers of `I` leave there -/

theorem onlyI_setI (s : State) (w : Word) : OnlyI s (s.setI w) := ⟨rfl, fun _ => rfl⟩

/-- An instruction that writes `w` to `I` leaves there whatever is known of `w`, and leaves all else alone. -/
theorem writesI (hi : exec i s = .next (s.setI w)) (hw : R w) :
    ∃ t, exec i s = .next t ∧ R t.i ∧ OnlyI s t :=
  ⟨_, hi, hw, onlyI_setI s w⟩

/-- The sum of ADD I,Vx is kept in all 16 bits (42_index_memory.md R101). -/
theorem add_wordOfByte_toNat (w : Word) (b : Byte) : (w + wordOfByte b).toNat = (w.toNat + b.toNat) % 65536 := by
  rw [BitVec.toNat_add, wordOfByte_toNat]

/-- Five times the greatest byte is 1275, so the product in 16 bits is the exact one (42_index_memory.md R102). -/
theorem glyphAddr_toNat (b : Byte) : (glyphAddr b).toNat = b.toNat * 5 := by
  have hb := b.isLt
  calc (wordOfByte b * 5).toNat
      = (wordOfByte b).toNat * 5 % 65536 := BitVec.toNat_mul _ _
    _ = b.toNat * 5 := by rw [wordOfByte_toNat, Nat.mod_eq_of_lt (by omega)]

/-- The advance of `I` by the number of bytes transferred (42_index_memory.md R104, R105). -/
theorem add_regIx_toNat (w : Word) (x : RegIx) :
    (w + BitVec.ofNat 16 x.val).toNat = (w.toNat + x.val) % 65536 := by
  rw [BitVec.toNat_add, BitVec.toNat_ofNat, Nat.add_mod_mod]

/-! ### LD B,Vx -/

/-- Each of the three digits is below 10, so a byte holds it (42_index_memory.md R103). -/
theorem decimalDigits_toNat (b : Byte) :
    (decimalDigits b).map BitVec.toNat = [b.toNat / 100, b.toNat / 10 % 10, b.toNat % 10] := by
  have hb := b.isLt
  simp only [decimalDigits, List.map_cons, List.map_nil, BitVec.toNat_ofNat, List.cons.injEq, and_true]
  omega

/-- LD B,Vx stores the `k`-th digit at its own offset from `I` (42_index_memory.md R103). -/
theorem readByte_execLdB (h : execLdB x s = .next t) (hs : Memory.wf s.font s.mem = true) {k : Nat} (hk : k < 3) :
    (t.readByte (s.i.toNat + k)).toNat =
      [(s.getV x).toNat / 100, (s.getV x).toNat / 10 % 10, (s.getV x).toNat % 10][k] := by
  have hlen : k < (decimalDigits (s.getV x)).length := hk
  have hmax : (decimalDigits (s.getV x)).length ≤ Config.memSize := show 3 ≤ 4096 by decide
  have hbyte : t.readByte (s.i.toNat + k) = (decimalDigits (s.getV x))[k] := by
    cases h
    exact State.readByte_writeBytes_at _ s s.i.toNat k hs hmax hlen
  calc (t.readByte (s.i.toNat + k)).toNat
      = ((decimalDigits (s.getV x)).map BitVec.toNat)[k]'(by rwa [List.length_map]) := by
        rw [hbyte, List.getElem_map]
    _ = _ := List.getElem_of_eq (decimalDigits_toNat (s.getV x)) _

/-! ### The two transfers -/

theorem execStoreRegs_i (h : execStoreRegs x s = .next t) : t.i = s.i + BitVec.ofNat 16 x.val := by
  cases h
  rfl

theorem execLoadRegs_i (h : execLoadRegs x s = .next t) : t.i = s.i + BitVec.ofNat 16 x.val := by
  cases h
  rfl

/-- LD [I],Vx changes memory and `I` only (42_index_memory.md R104). -/
theorem execStoreRegs_eq (h : execStoreRegs x s = .next t) : t = { s with mem := t.mem, i := t.i } := by
  cases h
  exact congrArg (State.setI · (s.i + BitVec.ofNat 16 x.val)) (s.writeBytes_eq _ _)

/-- LD Vx,[I] changes registers and `I` only (42_index_memory.md R105). -/
theorem execLoadRegs_eq (h : execLoadRegs x s = .next t) : t = { s with v := t.v, i := t.i } := by
  cases h
  exact congrArg (State.setI · (s.i + BitVec.ofNat 16 x.val)) (s.loadFrom_eq _ _)

/-- LD [I],Vx keeps every byte outside the `x` cells from the old `I` on (42_index_memory.md R104). -/
theorem readByte_execStoreRegs_other (h : execStoreRegs x s = .next t) (hs : Memory.wf s.font s.mem = true) {a : Nat}
    (ha : ¬ Touches s.i.toNat x.val a) : t.readByte a = s.readByte a := by
  cases h
  rw [← s.firstRegs_length x.val x.isLt.le] at ha
  exact State.readByte_writeBytes_other _ s _ a hs ha

/-- LD Vx,[I] loads each register below `Vx` from its own offset from the old `I`, and no other
(42_index_memory.md R105). -/
theorem getV_execLoadRegs (h : execLoadRegs x s = .next t) (r : RegIx) :
    t.getV r = if r < x then s.readByte (s.i.toNat + r.val) else s.getV r := by
  cases h
  exact s.getV_loadFrom s.i.toNat x.val x.isLt.le r

end

/-! ### The obligations -/

/-- Settles O22: the three digits are the bytes written, and `writeBytes` changes no other cell and no other field. -/
theorem storeDecimalDigits : Obligations.StoreDecimalDigits := by
  refine ⟨selects_of_typeF 0x33 fun _ => decodeTypeF_of_kk33, fun x s hs => ⟨_, rfl, ?_, ?_, ?_, ?_, ?_⟩⟩
  · exact readByte_execLdB rfl hs (k := 0) (by decide)
  · exact readByte_execLdB rfl hs (k := 1) (by decide)
  · exact readByte_execLdB rfl hs (k := 2) (by decide)
  · exact fun a => State.readByte_writeBytes_other (decimalDigits (s.getV x)) s s.i.toNat a hs
  · exact s.writeBytes_eq _ _

/-- Settles O23: the registers below `Vx` are the bytes written; then `I` advances by their number. -/
theorem storeRegisters : Obligations.StoreRegisters := by
  refine ⟨selects_of_typeF 0x55 fun _ => decodeTypeF_of_kk55, fun x s hs => ?_⟩
  obtain ⟨t, h⟩ : ∃ t, execStoreRegs x s = .next t := ⟨_, rfl⟩
  have hi : t.i.toNat = (s.i.toNat + x.val) % 65536 := by rw [execStoreRegs_i h, add_regIx_toNat]
  exact ⟨t, h, fun r => readByte_execStoreRegs h hs, fun a => readByte_execStoreRegs_other h hs, hi, execStoreRegs_eq h⟩

/-- Settles O24: `loadFrom` changes registers only; then `I` advances by the number of those loaded. -/
theorem loadRegisters : Obligations.LoadRegisters := by
  refine ⟨selects_of_typeF 0x65 fun _ => decodeTypeF_of_kk65, fun x s => ?_⟩
  obtain ⟨t, h⟩ : ∃ t, execLoadRegs x s = .next t := ⟨_, rfl⟩
  have hi : t.i.toNat = (s.i.toNat + x.val) % 65536 := by rw [execLoadRegs_i h, add_regIx_toNat]
  have hmem : t.mem = s.mem := execLoadRegs_onlyWrites h .mem (by simp)
  have hfont : t.font = s.font := execLoadRegs_onlyWrites h .font (by simp)
  exact ⟨t, h, getV_execLoadRegs h, hi, execLoadRegs_eq h, s.readByte_congr t hfont hmem⟩

/-- Settles O58: the load reads back, from the same offsets, the bytes the store put there; both advance `I` alike. -/
theorem loadUndoesStore : Obligations.LoadUndoesStore := by
  intro x s v hs
  obtain ⟨t, hstore⟩ : ∃ t, execStoreRegs x s = .next t := ⟨_, rfl⟩
  obtain ⟨u, hload⟩ : ∃ u, execLoadRegs x { t with v := v, i := s.i } = .next u := ⟨_, rfl⟩
  refine ⟨t, u, hstore, hload, fun r hr => ?_, ?_, execLoadRegs_onlyWrites hload .mem (by simp)⟩
  · calc u.getV r = t.readByte (s.i.toNat + r.val) := (getV_execLoadRegs hload r).trans (if_pos hr)
      _ = s.getV r := readByte_execStoreRegs hstore hs hr
  · exact (execLoadRegs_i hload).trans (execStoreRegs_i hstore).symm

/-- Settles O20: both are a `setI`; the address of LD I,nnn fits in `I`, the sum of ADD I,Vx is taken modulo 65536. -/
theorem indexRegisterLoads : Obligations.IndexRegisterLoads := by
  refine ⟨selects_of_type 0xA fun _ => decode_of_typeA, selects_of_typeF 0x1E fun _ => decodeTypeF_of_kk1E,
    fun nnn x s => ⟨?_, ?_⟩⟩
  · exact writesI (R := (·.toNat = _)) rfl (addrOfImm_toNat nnn)
  · exact writesI (R := (·.toNat = _)) rfl (add_wordOfByte_toNat s.i (s.getV x))

/-- Settles O21: a `setI` of the whole byte times 5, which fits in `I`. -/
theorem glyphAddress : Obligations.GlyphAddress :=
  ⟨selects_of_typeF 0x29 fun _ => decodeTypeF_of_kk29,
    fun x s => writesI (R := (·.toNat = _)) rfl (glyphAddr_toNat (s.getV x))⟩

end Sys2Proof.Machine
end

section
/-! The display (spec/43_display.md): the words that decode to CLS and DRW, drawing as the toggling of a set of pixels with
the collision kept in VF, and that a sprite touches every pixel at most once (R111, corner case d). -/

namespace Sys2Proof

theorem decode_of_typeD {op : Word} (h : fieldType op = 0xD) :
    decode op = .drw (fieldX op) (fieldY op) (fieldN op) := by simp [decode, h]

end Sys2Proof

namespace Sys2Proof.Machine

/-- A display is determined by its 64 × 32 pixels (10_state.md R19). -/
theorem State.pix_ext {s t : State} (h : ∀ px < 64, ∀ py < 32, t.pixel px py = s.pixel px py) : t.pix = s.pix := by
  refine Vector.ext fun row hrow => BitVec.eq_of_getLsbD_eq fun col hcol => ?_
  simpa [State.pixel, Nat.mod_eq_of_lt hrow, Nat.mod_eq_of_lt hcol] using h col hcol row hrow

/-! ### Toggling a set of pixels -/

/-- `t` is `s` after drawing on exactly the pixels `P`: these are toggled, VF becomes 1 if one of them was on in `s` and is
kept otherwise, and the other registers are kept (43_display.md R111). -/
structure Toggles (P : Nat → Nat → Prop) (s t : State) : Prop where
  onDisplay : ∀ px py, P px py → px < 64 ∧ py < 32
  pixel : ∀ px < 64, ∀ py < 32, (t.pixel px py ≠ s.pixel px py ↔ P px py)
  flag : t.getV flagReg = 1 ↔ s.getV flagReg = 1 ∨ ∃ px py, P px py ∧ s.pixel px py = true
  flagKept : t.getV flagReg = s.getV flagReg ∨ t.getV flagReg = 1
  others : OtherV s t flagReg

section
variable {P Q : Nat → Nat → Prop} {s t u : State} {px py : Nat}

theorem Toggles.nothing (s : State) : Toggles (fun _ _ => False) s s where
  onDisplay _ _ := False.elim
  pixel := by simp
  flag := by simp
  flagKept := .inl rfl
  others _ _ := rfl

theorem Toggles.congr (h : Toggles P s t) (hPQ : ∀ px py, P px py ↔ Q px py) : Toggles Q s t := by
  rwa [← funext₂ fun px py => propext (hPQ px py)]

theorem Toggles.pixel_mem (h : Toggles P s t) (hp : P px py) : t.pixel px py = !s.pixel px py := by
  obtain ⟨hx, hy⟩ := h.onDisplay px py hp
  exact Bool.eq_not.mpr ((h.pixel px hx py hy).mpr hp)

theorem Toggles.pixel_notMem (h : Toggles P s t) (hx : px < 64) (hy : py < 32) (hp : ¬ P px py) :
    t.pixel px py = s.pixel px py :=
  not_not.mp (mt (h.pixel px hx py hy).mp hp)

/-- Drawing on `P` and then on pixels outside `P` is drawing on both: the second finds its pixels as they were at first. -/
theorem Toggles.trans (h : Toggles P s t) (k : Toggles Q t u) (hdisj : ∀ px py, Q px py → ¬ P px py) :
    Toggles (fun px py => P px py ∨ Q px py) s u where
  onDisplay px py hpq := hpq.elim (h.onDisplay px py) (k.onDisplay px py)
  pixel px hx py hy := by
    by_cases hq : Q px py
    · have hp := hdisj px py hq
      rw [← h.pixel_notMem hx hy hp]
      simp [k.pixel px hx py hy, hq]
    · rw [k.pixel_notMem hx hy hq]
      simp [h.pixel px hx py hy, hq]
  flag := by
    have hsame : ∀ px py, (Q px py ∧ t.pixel px py = true ↔ Q px py ∧ s.pixel px py = true) := by
      refine fun px py => and_congr_right fun hq => ?_
      obtain ⟨hx, hy⟩ := k.onDisplay px py hq
      rw [h.pixel_notMem hx hy (hdisj px py hq)]
    simp only [k.flag, h.flag, hsame, or_and_right, exists_or, or_assoc]
  flagKept := by
    rcases k.flagKept with e | e
    · rw [e]
      exact h.flagKept
    · exact .inr e
  others r hr := (k.others r hr).trans (h.others r hr)

/-- Drawing the same pixels twice restores the display. -/
theorem Toggles.pix_twice {t' : State} (h : Toggles P s t) (ht : t'.pix = t.pix) (k : Toggles P t' u) : u.pix = s.pix := by
  have ht' : ∀ px py, t'.pixel px py = t.pixel px py := fun px py => by simp only [State.pixel, ht]
  refine State.pix_ext fun px hx py hy => ?_
  by_cases hp : P px py
  · rw [k.pixel_mem hp, ht', h.pixel_mem hp, Bool.not_not]
  · rw [k.pixel_notMem hx hy hp, ht', h.pixel_notMem hx hy hp]

end

/-! ### A pixel, a row, a sprite -/

/-- Pixel (px, py) lies under a set bit in columns 0 to `n`-1 of the sprite byte `b` drawn at (vx, vy). -/
def ByteCovers (b : Byte) (vx vy n px py : Nat) : Prop :=
  ∃ col < n, spriteBit b col = true ∧ px = (vx + col) % 64 ∧ py = vy % 32

theorem byteCovers_succ (b : Byte) (vx vy n px py : Nat) : ByteCovers b vx vy (n + 1) px py ↔
    ByteCovers b vx vy n px py ∨ spriteBit b n = true ∧ px = (vx + n) % 64 ∧ py = vy % 32 :=
  Nat.exists_lt_succ_right

theorem spriteCovers_succ (s : State) (base vx vy n px py : Nat) : s.SpriteCovers base vx vy (n + 1) px py ↔
    s.SpriteCovers base vx vy n px py ∨ ByteCovers (s.spriteRow base n) vx (vy + n) 8 px py :=
  Nat.exists_lt_succ_right

/-- One set sprite bit toggles the pixel its wrapped coordinates select. -/
theorem toggles_drawPixel (s : State) (px py : Nat) :
    Toggles (fun qx qy => qx = px % 64 ∧ qy = py % 32) s (s.drawPixel px py) where
  onDisplay := by omega
  pixel qx hx qy hy := by
    rw [State.pixel_drawPixel, Nat.mod_eq_of_lt hx, Nat.mod_eq_of_lt hy]
    by_cases hq : qx = px % 64 ∧ qy = py % 32 <;> simp [hq]
  flag := by
    have hwrap : s.pixel (px % 64) (py % 32) = s.pixel px py := by simp [State.pixel]
    by_cases h : s.pixel px py = true <;> simp [State.getV_drawPixel, hwrap, h]
  flagKept := by
    rw [State.getV_drawPixel]
    split <;> simp
  others r hr := by simp [State.getV_drawPixel, hr]

/-- The columns of a sprite byte are distinct modulo 64, so each pixel is toggled once. -/
theorem toggles_drawCols (s : State) (b : Byte) (vx vy : Nat) {n : Nat} (hn : n ≤ 64) :
    Toggles (ByteCovers b vx vy n) s (s.drawCols b vx vy n) := by
  induction n with
  | zero => exact (Toggles.nothing s).congr fun _ _ => by simp [ByteCovers]
  | succ n ih =>
    have h := ih (by omega)
    by_cases hb : spriteBit b n = true
    · have hdisj : ∀ px py, px = (vx + n) % 64 ∧ py = vy % 32 → ¬ ByteCovers b vx vy n px py := by
        rintro px py ⟨hx, -⟩ ⟨col, hcol, -, hx', -⟩
        omega
      simp only [State.drawCols, hb, if_true]
      exact (h.trans (toggles_drawPixel _ (vx + n) vy) hdisj).congr fun _ _ => by simp [byteCovers_succ, hb]
    · simp only [State.drawCols, hb]
      exact h.congr fun _ _ => by simp [byteCovers_succ, hb]

/-- The rows of a sprite are distinct modulo 32, so each pixel is toggled once. -/
theorem toggles_drawRows (s : State) (base vx vy : Nat) {n : Nat} (hn : n ≤ 32) :
    Toggles (s.SpriteCovers base vx vy n) s (s.drawRows base vx vy n) := by
  induction n with
  | zero => exact (Toggles.nothing s).congr fun _ _ => by simp [State.SpriteCovers]
  | succ n ih =>
    have hdisj : ∀ px py, ByteCovers (s.spriteRow base n) vx (vy + n) 8 px py → ¬ s.SpriteCovers base vx vy n px py := by
      rintro px py ⟨_, -, -, -, hy⟩ ⟨row, hrow, _, -, -, -, hy'⟩
      omega
    have hrow := toggles_drawCols (s.drawRows base vx vy n) (s.spriteRow base n) vx (vy + n) (show 8 ≤ 64 by decide)
    exact ((ih (by omega)).trans hrow hdisj).congr fun px py => (spriteCovers_succ s base vx vy n px py).symm

/-! ### DRW -/

section
variable {x y : RegIx} {n : RowCount} {s t : State}

/-- The pixels DRW toggles: those its sprite covers, at coordinates read before VF is cleared (43_display.md R111). -/
def State.DrwCovers (s : State) (x y : RegIx) (n : RowCount) : Nat → Nat → Prop :=
  s.SpriteCovers s.i.toNat (s.getV x).toNat (s.getV y).toNat n.val

theorem execDrw_toggles (h : execDrw x y n s = .next t) : Toggles (s.DrwCovers x y n) (s.setV flagReg 0) t := by
  cases h
  exact toggles_drawRows (s.setV flagReg 0) _ _ _ (by omega)

/-- VF after DRW tells whether a covered pixel was on. -/
theorem execDrw_flag (h : execDrw x y n s = .next t) :
    t.getV flagReg = 1 ↔ ∃ px py, s.DrwCovers x y n px py ∧ s.pixel px py = true := by
  simpa using (execDrw_toggles h).flag

theorem execDrw_flag_bit (h : execDrw x y n s = .next t) : t.getV flagReg = 0 ∨ t.getV flagReg = 1 := by
  simpa using (execDrw_toggles h).flagKept

theorem execDrw_otherV (h : execDrw x y n s = .next t) : OtherV s t flagReg := fun r hr =>
  ((execDrw_toggles h).others r hr).trans (s.getV_setV_other flagReg r 0 hr)

theorem execDrw_eq (h : execDrw x y n s = .next t) : t = { s with v := t.v, pix := t.pix } := by
  cases h
  exact State.drawRows_eq (s.setV flagReg 0) _ _ _ _

theorem execDrw_readByte (h : execDrw x y n s = .next t) (a : Nat) : t.readByte a = s.readByte a :=
  s.readByte_congr t (execDrw_onlyWrites h .font (by simp)) (execDrw_onlyWrites h .mem (by simp)) a

/-- DRW leaves the coordinates, unless one of them is VF, and the sprite: the next one like it covers the same pixels. -/
theorem execDrw_drwCovers (h : execDrw x y n s = .next t) (hx : x ≠ flagReg) (hy : y ≠ flagReg) :
    t.DrwCovers x y n = s.DrwCovers x y n := by
  have hi : t.i = s.i := execDrw_onlyWrites h .i (by simp)
  unfold State.DrwCovers State.SpriteCovers State.spriteRow
  simp only [execDrw_readByte h, execDrw_otherV h x hx, execDrw_otherV h y hy, hi]

end

/-! ### The obligations -/

/-- Settles O26: drawing toggles the covered pixels, each once, and changes registers and display only. -/
theorem drawSprite : Obligations.DrawSprite := by
  refine ⟨selects_of_type 0xD fun _ => decode_of_typeD, fun x y n s => ?_⟩
  obtain ⟨t, h⟩ : ∃ t, execDrw x y n s = .next t := ⟨_, rfl⟩
  exact ⟨t, h, (execDrw_toggles h).pixel, execDrw_flag h, execDrw_flag_bit h, execDrw_otherV h, execDrw_eq h,
    execDrw_readByte h⟩

/-- Settles O27: both draws cover the same pixels, and the second finds these toggled, so on where they were off. -/
theorem drawTwiceRestores : Obligations.DrawTwiceRestores := by
  intro x y n s hx hy
  obtain ⟨t, ht⟩ : ∃ t, execDrw x y n s = .next t := ⟨_, rfl⟩
  obtain ⟨u, hu⟩ : ∃ u, execDrw x y n t = .next u := ⟨_, rfl⟩
  have hcov := execDrw_drwCovers ht hx hy
  have hfirst := execDrw_toggles ht
  have hsecond := hcov ▸ execDrw_toggles hu
  refine ⟨t, u, ht, hu, hfirst.pix_twice (t.setV_pix flagReg 0) hsecond, execDrw_flag ht, ?_⟩
  rw [execDrw_flag hu, hcov]
  refine exists₂_congr fun px py => and_congr_right fun hp => ?_
  rw [hfirst.pixel_mem hp, State.pixel_setV, Bool.not_eq_true']

/-- Settles O25: the cleared display reads 0 everywhere, and `clearPixels` writes no other field. -/
theorem clearDisplay : Obligations.ClearDisplay :=
  ⟨selects_word 0x00E0, fun s => ⟨_, rfl, s.pixel_clearPixels, rfl, fun _ => rfl⟩⟩

/-- Settles O43: with `px` below 64, the column and the row of the linear index are `px` and `py`. -/
theorem readPixelForms : Obligations.ReadPixelForms := by
  refine fun s px py => ⟨rfl, fun p hp => ?_⟩
  have hcol : p.val % 64 = px.val := by omega
  have hrow : p.val / 64 = py.val := by omega
  simp only [operate, hcol, hrow]

end Sys2Proof.Machine
end

section
/-! Timers and keypad (spec/44_timer_keypad.md): the words that decode to these instructions, the key a register names, the
key LD Vx,K polls, and what the host's key operations do. -/

namespace Sys2Proof

open Machine (Selects)

section
variable {op : Word}

/-- A row of the opcode map with mask 0xF0FF selects the words of one type with one low byte (30_encoding.md R55). -/
theorem selects_of_type_kk {mk : Word → Instr} (t : Nibble) (kk : Byte)
    (h : ∀ op, fieldType op = t → fieldKk op = kk → decode op = mk op) : Selects 0xF0FF (wordXK t 0 kk) mk := by
  intro op hop
  have htype : fieldType op = t := (fieldType_of_selected hop rfl).trans (fieldType_wordXK t 0 kk)
  have hkk : fieldKk op = kk := (fieldKk_of_selected hop rfl).trans (fieldKk_wordXK t 0 kk)
  exact h op htype hkk

theorem decode_of_typeE_kk9E (h : fieldType op = 0xE) (hk : fieldKk op = 0x9E) : decode op = .skp (fieldX op) := by
  simp [decode, decodeTypeE, h, hk]
theorem decode_of_typeE_kkA1 (h : fieldType op = 0xE) (hk : fieldKk op = 0xA1) : decode op = .sknp (fieldX op) := by
  simp [decode, decodeTypeE, h, hk]

theorem decodeTypeF_of_kk07 (h : fieldKk op = 0x07) : decodeTypeF op = .ldVxDt (fieldX op) := by simp [decodeTypeF, h]
theorem decodeTypeF_of_kk0A (h : fieldKk op = 0x0A) : decodeTypeF op = .ldVxK (fieldX op) := by simp [decodeTypeF, h]
theorem decodeTypeF_of_kk15 (h : fieldKk op = 0x15) : decodeTypeF op = .ldDtVx (fieldX op) := by simp [decodeTypeF, h]
theorem decodeTypeF_of_kk18 (h : fieldKk op = 0x18) : decodeTypeF op = .ldStVx (fieldX op) := by simp [decodeTypeF, h]

end

end Sys2Proof

namespace Sys2Proof.Machine

section
variable {s : State} {k : KeyIx} {x : RegIx} {code : Nat}

/-! ### A key as the low digit of a byte, and as a byte -/

theorem keyOfByte_val (b : Byte) : (keyOfByte b).val = b.toNat % 16 := BitVec.extractLsb'_toNat 0 4 b

theorem byteOfKey_toNat (k : KeyIx) : (byteOfKey k).toNat = k.val := by
  have hk := k.isLt
  rw [byteOfKey, BitVec.toNat_ofNat, Nat.mod_eq_of_lt (by omega)]

/-! ### LD Vx,K -/

/-- The key scan finds the lowest pressed key among 0 to 14: there is at most one such key, and none only if all of them
are up (44_timer_keypad.md R125). -/
theorem State.firstKey?_eq_some_iff :
    s.firstKey? = some k ↔ k.val < 15 ∧ s.key k = true ∧ ∀ j : KeyIx, j < k → s.key j = false := by
  refine ⟨s.firstKey?_some, fun ⟨hk, hdown, hlow⟩ => ?_⟩
  cases hfirst : s.firstKey? with
  | none => simp [s.firstKey?_none.mp hfirst k hk] at hdown
  | some j =>
    obtain ⟨-, hjdown, hjlow⟩ := s.firstKey?_some hfirst
    obtain hlt | rfl | hgt := lt_trichotomy j k
    · simp [hlow j hlt] at hjdown
    · rfl
    · simp [hjlow k hgt] at hdown

theorem execLdVxK_of_some (h : s.firstKey? = some k) : execLdVxK x s = .next (s.setV x (byteOfKey k)) := by
  simp [execLdVxK, h]

theorem execLdVxK_of_none (h : s.firstKey? = none) : execLdVxK x s = .next s := by
  simp [execLdVxK, h]

/-! ### SetPhysicalKey -/

theorem operate_setPhysicalKey_of_some (h : keymap code = some k) (p : Bool) :
    operate s (.setPhysicalKey code p) = operate s (.setKey k p) := by
  simp [operate, h]

theorem operate_setPhysicalKey_of_none (h : keymap code = none) (p : Bool) :
    operate s (.setPhysicalKey code p) = .next (s, .none) := by
  simp [operate, h]

end

/-! ### The obligations -/

/-- Settles O30: the scan finds the lowest pressed key, and LD Vx,K writes it, or nothing when the scan finds none. -/
theorem keyPollTakesTheLowestKey : Obligations.KeyPollTakesTheLowestKey := by
  refine ⟨selects_of_typeF 0x0A fun _ => decodeTypeF_of_kk0A, fun x s => ⟨fun k hk hdown hlow => ?_, fun hup => ?_⟩⟩
  · have hfirst : s.firstKey? = some k := State.firstKey?_eq_some_iff.mpr ⟨hk, hdown, hlow⟩
    exact writesV (R := (·.toNat = _)) (execLdVxK_of_some hfirst) (byteOfKey_toNat k)
  · exact execLdVxK_of_none (s.firstKey?_none.mpr hup)

/-- Settles O28: `k` is the key the model reads off `Vx`; SKP skips on its state and SKNP on the negation. -/
theorem skipsOnAKey : Obligations.SkipsOnAKey := by
  refine ⟨selects_of_type_kk 0xE 0x9E fun _ => decode_of_typeE_kk9E,
    selects_of_type_kk 0xE 0xA1 fun _ => decode_of_typeE_kkA1, fun x k s hk => ?_⟩
  obtain rfl : k = keyOfByte (s.getV x) := Fin.ext (hk.trans (keyOfByte_val _).symm)
  exact ⟨skips_of_iff s rfl Iff.rfl, skips_of_iff s rfl (Bool.not_eq_true' _).to_iff⟩

/-- Settles O29: one register write, and one write of each timer. -/
theorem timerLoads : Obligations.TimerLoads := by
  refine ⟨selects_of_typeF 0x07 fun _ => decodeTypeF_of_kk07, selects_of_typeF 0x15 fun _ => decodeTypeF_of_kk15,
    selects_of_typeF 0x18 fun _ => decodeTypeF_of_kk18, fun x s => ⟨?_, ?_, ?_⟩⟩
  · exact writesV (R := (· = _)) rfl rfl
  · exact ⟨_, rfl, s.setDt_dt _, rfl, fun _ => rfl⟩
  · exact ⟨_, rfl, s.setSt_st _, rfl, fun _ => rfl⟩

/-- Settles O41: both timers are counted down by `countDown`, which stops at 0. -/
theorem tickCountsTimersDown : Obligations.TickCountsTimersDown :=
  fun s => ⟨s.tickTimers, rfl, countDown_toNat s.dt, countDown_toNat s.st, rfl⟩

/-- Settles O42: SetKey is one key write; the key map inverts the table of codes, which holds no code twice. -/
theorem keyOperations : Obligations.KeyOperations := by
  refine ⟨fun s k p => ?_, keymap_eq_some_iff, Config.keyTable.distinct, fun s code p => ⟨fun k h => ?_, fun h => ?_⟩⟩
  · exact ⟨s.setKey k p, rfl, fun j => s.key_setKey k j p, rfl⟩
  · exact operate_setPhysicalKey_of_some h p
  · exact operate_setPhysicalKey_of_none h p

end Sys2Proof.Machine
end

section
/-! Faults and the host's operations (spec/60_exceptions.md): which instructions fault and what they leave (R132, R133),
what a Step replies (R131), which fields each host operation writes (R138, R142), and that every session keeps the
invariant. -/

namespace Sys2Proof.Machine

section
variable {i : Instr} {s t : State} {c : Fault} {o : Operation} {r : Reply} {fs gs : List StateField}

/-! ### Taking a fault -/

/-- The fault of an instruction in `s`: overflow for CALL on a full stack, underflow for RET on an empty one
(60_exceptions.md R132). -/
def FaultsWith (i : Instr) (s : State) (c : Fault) : Prop :=
  ((∃ nnn, i = .call nnn) ∧ s.sp.val = 16 ∧ c = .stackOverflow) ∨ (i = .ret ∧ s.sp.val = 0 ∧ c = .stackUnderflow)

theorem FaultsWith.exec_eq (h : FaultsWith i s c) : exec i s = .next (s.raise c) := by
  obtain ⟨⟨nnn, rfl⟩, hsp, rfl⟩ | ⟨rfl, hsp, rfl⟩ := h
  · exact execCall_overflow nnn hsp
  · exact execRet_underflow hsp

/-- INVERSION: an instruction that turns a running machine into a faulted one is CALL or RET, and it did nothing else. -/
theorem exec_faulted (hrun : s.status = .running) (h : exec i s = .next t) (ht : t.status = .faulted c) :
    FaultsWith i s c ∧ t = s.raise c := by
  cases i
  case call nnn =>
    obtain ⟨hsp, rfl⟩ | ⟨_, rfl⟩ := execCall_next h
    · cases ht
      exact ⟨.inl ⟨⟨nnn, rfl⟩, hsp, rfl⟩, rfl⟩
    · simp [hrun] at ht
  case ret =>
    obtain ⟨hsp, rfl⟩ | ⟨k, hk, -, rfl⟩ := execRet_next h
    · cases ht
      exact ⟨.inr ⟨rfl, hsp, rfl⟩, rfl⟩
    · simp [hrun] at ht
  all_goals
    have hst : t.status = s.status := exec_onlyWrites h .status (by simp [Instr.writes])
    simp [hst, hrun] at ht

/-! ### The host's Step -/

theorem stepReply_running (s : State) (h : t.status = .running) : stepReply s t = .ok := by
  simp [stepReply, h]

theorem stepReply_faulted (s : State) (h : t.status = .faulted c) : stepReply s t = .fault c s.pc s.fetchWord := by
  simp [stepReply, h]

theorem operate_step_of_next (h : step s = .next t) : operate s .step = .next (t, stepReply s t) := by
  simp [operate, h]

theorem operate_step_of_faulted (h : s.status = .faulted c) : operate s .step = .next (s, .faultAgain c) := by
  simp [operate, step_faulted h]

/-- INVERSION: the host's Step takes a Step of the machine, or leaves a faulted one as it is (60_exceptions.md R134). -/
theorem operate_step_next (h : operate s .step = .next (t, r)) :
    (step s = .next t ∧ r = stepReply s t) ∨ ∃ c, s.status = .faulted c ∧ t = s ∧ r = .faultAgain c := by
  cases hs : s.status with
  | running =>
    obtain ⟨u, hu⟩ := exec_completes (decode s.fetchWord) s.advance
    have hstep : step s = .next u := (step_running hs).trans hu
    cases (operate_step_of_next hstep).symm.trans h
    exact .inl ⟨hstep, rfl⟩
  | faulted c =>
    cases (operate_step_of_faulted hs).symm.trans h
    exact .inr ⟨c, rfl, rfl, rfl⟩

/-! ### The frame of every host operation -/

theorem OnlyWrites.mono (h : OnlyWrites fs s t) (hsub : fs ⊆ gs) : OnlyWrites gs s t :=
  fun f hf => h f fun hmem => hf (hsub hmem)

/-- The frame of the operations other than Step and Reset, as one record update. -/
theorem OnlyWrites.eq_update (h : OnlyWrites [.dt, .st, .keys, .mem] s t) :
    t = { s with dt := t.dt, st := t.st, keys := t.keys, mem := t.mem } := by
  cases s
  cases t
  simpa [onlyWrites_iff] using h

/-- The fields a host operation may write (60_exceptions.md R138, R142). -/
def Operation.writes : Operation → List StateField
  | .reset => [.v, .i, .pc, .sp, .stack, .dt, .st, .mem, .pix, .keys, .status]
  | .step => [.v, .i, .pc, .sp, .stack, .dt, .st, .mem, .pix, .status, .draws]
  | .loadRom _ => [.mem]
  | .tickTimers => [.dt, .st]
  | .setKey _ _ | .setPhysicalKey _ _ => [.keys]
  | .readPixel _ _ | .readPixelIndex _ => []

/-- A Step leaves the keys and the font, which no instruction writes. -/
theorem step_onlyWrites (h : step s = .next t) : OnlyWrites Operation.step.writes s t := by
  have hkeys : t.keys = s.keys := noInstructionWritesAKey _ s.advance t (step_next h).2
  simp [onlyWrites_iff, Operation.writes, hkeys, step_font h]

/-- INVERSION: LoadRom writes the image from `LOAD_OFFSET` on, or nothing (20_memory.md R42). -/
theorem operate_loadRom_next {image : List Byte} (h : operate s (.loadRom image) = .next (t, r)) :
    (image.length ≤ 3584 ∧ t = s.writeBytes Config.loadOffset image ∧ r = .ok) ∨
      (image.length > 3584 ∧ t = s ∧ r = .romTooLarge) := by
  rcases Nat.lt_or_ge 3584 image.length with hlen | hlen
  · cases (operate_loadRom_tooLarge hlen).symm.trans h
    exact .inr ⟨hlen, rfl, rfl⟩
  · cases (operate_loadRom_ok hlen).symm.trans h
    exact .inl ⟨hlen, rfl, rfl⟩

theorem setKey_onlyWrites (s : State) (k : KeyIx) (p : Bool) : OnlyWrites [.keys] s (s.setKey k p) := by
  simp [onlyWrites_iff]

/-- THE FRAME OF EVERY HOST OPERATION: what `Operation.writes` does not list is left alone. -/
theorem operate_onlyWrites (h : operate s o = .next (t, r)) : OnlyWrites o.writes s t := by
  cases o with
  | reset => cases h; simp [onlyWrites_iff, Operation.writes, State.doReset, State.resetWith]
  | loadRom image =>
    obtain ⟨-, rfl, -⟩ | ⟨-, rfl, -⟩ := operate_loadRom_next h
    · exact writeBytes_onlyWrites s _ image
    · exact .refl _ _
  | step =>
    obtain ⟨hstep, -⟩ | ⟨c, -, rfl, -⟩ := operate_step_next h
    · exact step_onlyWrites hstep
    · exact .refl _ _
  | tickTimers => cases h; simp [onlyWrites_iff, Operation.writes]
  | setKey k p => cases h; exact setKey_onlyWrites s k p
  | setPhysicalKey code p =>
    cases hk : keymap code with
    | some k => cases (operate_setPhysicalKey_of_some hk p).symm.trans h; exact setKey_onlyWrites s k p
    | none => cases (operate_setPhysicalKey_of_none hk p).symm.trans h; exact .refl _ s
  | readPixel px py => cases h; exact .refl _ s
  | readPixelIndex index => cases h; exact .refl _ s

/-- Only Reset and Step write `status` (60_exceptions.md R146). -/
theorem operate_status (hstep : o ≠ .step) (hreset : o ≠ .reset) (h : operate s o = .next (t, r)) :
    t.status = s.status :=
  operate_onlyWrites h .status (by cases o <;> simp_all [Operation.writes])

/-! ### The operations other than Step and Reset do not look at `status` -/

theorem writeBytes_withStatus (s : State) (st : Status) (a : Nat) (bs : List Byte) :
    ({ s with status := st } : State).writeBytes a bs = { s.writeBytes a bs with status := st } := by
  have hmem := State.writeBytes_mem_congr bs s { s with status := st } a rfl rfl
  rw [State.writeBytes_eq bs { s with status := st }, State.writeBytes_eq bs s, hmem]

/-- An operation other than Step and Reset completes, and does the same with any status (60_exceptions.md R146). -/
theorem operate_withStatus (hstep : o ≠ .step) (hreset : o ≠ .reset) (s : State) (st : Status) :
    ∃ t r, operate s o = .next (t, r) ∧ operate { s with status := st } o = .next ({ t with status := st }, r) := by
  cases o with
  | reset => contradiction
  | step => contradiction
  | loadRom image =>
    rcases Nat.lt_or_ge 3584 image.length with hlen | hlen
    · exact ⟨_, _, operate_loadRom_tooLarge hlen, operate_loadRom_tooLarge hlen⟩
    · exact ⟨_, _, operate_loadRom_ok hlen, by rw [operate_loadRom_ok hlen, writeBytes_withStatus]⟩
  | setPhysicalKey code p =>
    cases hk : keymap code with
    | some k => exact ⟨_, _, operate_setPhysicalKey_of_some hk p, operate_setPhysicalKey_of_some hk p⟩
    | none => exact ⟨_, _, operate_setPhysicalKey_of_none hk p, operate_setPhysicalKey_of_none hk p⟩
  | tickTimers => exact ⟨_, _, rfl, rfl⟩
  | setKey k p => exact ⟨_, _, rfl, rfl⟩
  | readPixel px py => exact ⟨_, _, rfl, rfl⟩
  | readPixelIndex index => exact ⟨_, _, rfl, rfl⟩

/-! ### The invariant along a session -/

/-- No host operation changes the font table (00_scope.md R6). -/
theorem operate_font (h : operate s o = .next (t, r)) : t.font = s.font :=
  operate_onlyWrites h .font (by cases o <;> simp [Operation.writes])

theorem State.Inv.writeBytes (hs : s.Inv) (a : Nat) (bs : List Byte) : (s.writeBytes a bs).Inv := by
  obtain ⟨hwf, hst⟩ := hs
  have hstatus : (s.writeBytes a bs).status = s.status := writeBytes_onlyWrites s a bs .status (by simp)
  exact ⟨State.writeBytes_wf bs s a hwf, hstatus ▸ hst⟩

/-- The invariant speaks of the font, memory and `status` only. -/
theorem State.Inv.of_onlyWrites (hs : s.Inv) (h : OnlyWrites [.dt, .st, .keys] s t) : t.Inv := by
  have hfont : t.font = s.font := h .font (by simp)
  have hmem : t.mem = s.mem := h .mem (by simp)
  have hstatus : t.status = s.status := h .status (by simp)
  rwa [State.Inv, hfont, hmem, hstatus]

/-- Every host operation keeps the invariant. -/
theorem operate_inv (h : operate s o = .next (t, r)) (hs : s.Inv) : t.Inv := by
  cases o
  case reset => cases h; exact doReset_inv s
  case loadRom image =>
    obtain ⟨-, rfl, -⟩ | ⟨-, rfl, -⟩ := operate_loadRom_next h
    · exact hs.writeBytes _ image
    · exact hs
  case step =>
    obtain ⟨hstep, -⟩ | ⟨c, -, rfl, -⟩ := operate_step_next h
    · exact step_inv hstep hs
    · exact hs
  all_goals exact hs.of_onlyWrites ((operate_onlyWrites h).mono (by simp [Operation.writes]))

/-- The invariant of a core built with the font `f`, which may never have been reset. -/
def DeviceInv (f : Font) (d : Option State) : Prop := ∀ s ∈ d, s.Inv ∧ s.font = f

theorem deviceInv_none (f : Font) : DeviceInv f none := by simp [DeviceInv]

theorem deviceInv_some {f : Font} : DeviceInv f (some s) ↔ s.Inv ∧ s.font = f := by simp [DeviceInv]

/-- Before the first Reset only Reset has a meaning, and it gives the reset state (70_reset_and_hazards.md R151). -/
theorem deviceOperate_none_next {f : Font} (h : deviceOperate f none o = .next (t, r)) : t = State.resetWith f := by
  cases o <;> cases h
  rfl

theorem deviceOperate_inv {f : Font} {d : Option State} (h : deviceOperate f d o = .next (t, r)) (hd : DeviceInv f d) :
    DeviceInv f (some t) := by
  cases d with
  | none =>
    cases deviceOperate_none_next h
    exact deviceInv_some.mpr ⟨resetWith_inv f, rfl⟩
  | some s =>
    obtain ⟨hs, hfont⟩ := deviceInv_some.mp hd
    exact deviceInv_some.mpr ⟨operate_inv h hs, (operate_font h).trans hfont⟩

/-- INVERSION: a session that completes has completed its first operation, and then the rest. -/
theorem session_cons_next {f : Font} {d e : Option State} {os : List Operation} {rs : List Reply}
    (h : session f d (o :: os) = .next (e, rs)) :
    ∃ t r rs', deviceOperate f d o = .next (t, r) ∧ session f (some t) os = .next (e, rs') ∧ rs = r :: rs' := by
  unfold session at h
  split at h
  · rename_i t r hop
    split at h
    · rename_i hrest
      cases h
      exact ⟨t, r, _, hop, hrest, rfl⟩
    all_goals cases h
  all_goals cases h

theorem session_inv {f : Font} {d e : Option State} {os : List Operation} {rs : List Reply}
    (h : session f d os = .next (e, rs)) (hd : DeviceInv f d) : DeviceInv f e := by
  induction os generalizing d rs with
  | nil => cases h; exact hd
  | cons o os ih =>
    obtain ⟨t, r, rs', hop, hrest, -⟩ := session_cons_next h
    exact ih hrest (deviceOperate_inv hop hd)

end

/-! ### The obligations -/

/-- Settles O38: each operation keeps the invariant and the font, and a session is one operation after the other, by
induction from the core that has never been reset. -/
theorem everySessionKeepsTheInvariant : Obligations.EverySessionKeepsTheInvariant :=
  ⟨fun _ _ _ _ h => ⟨operate_inv h, operate_font h⟩,
    fun f _ _ _ h => deviceInv_some.mp (session_inv h (deviceInv_none f))⟩

/-- Settles O31: by `exec_faulted`, and by what CALL and RET do at the two ends of the stack. -/
theorem onlyCallAndReturnFault : Obligations.OnlyCallAndReturnFault :=
  ⟨fun _ _ _ hrun => ⟨fun h => (exec_faulted hrun h rfl).1, FaultsWith.exec_eq⟩,
    fun _ _ _ _ hrun h ht => (exec_faulted hrun h ht).2, rfl, rfl, rfl, rfl⟩

/-- Settles O32: the faulting instruction starts from the state past the advance and changes `status` only. -/
theorem faultEntryChangesPcAndStatus : Obligations.FaultEntryChangesPcAndStatus := by
  intro s t c h ht
  obtain ⟨hrun, hexec⟩ := step_next h
  exact (exec_faulted (s.advance_status.trans hrun) hexec ht).2

/-- Settles O34: only Step and Reset read or write `status`. -/
theorem faultIsStickyUntilReset : Obligations.FaultIsStickyUntilReset := by
  intro s c hs
  refine ⟨step_faulted hs, operate_step_of_faulted hs, fun o hstep hreset => ?_, _, _, rfl, rfl⟩
  obtain ⟨t, r, h, hrunning⟩ := operate_withStatus hstep hreset s .running
  exact ⟨t, r, h, (operate_status hstep hreset h).trans hs, hrunning⟩

/-- Settles O45: the writes of these operations are among the timers, the keys and memory, and memory is in those of LoadRom
only. -/
theorem hostEventsDivertNothing : Obligations.HostEventsDivertNothing := by
  intro s t o r hstep hreset h
  have hframe : OnlyWrites o.writes s t := operate_onlyWrites h
  constructor
  · exact (hframe.mono (by cases o <;> simp_all [Operation.writes])).eq_update
  · intro hrom
    exact hframe .mem (by cases o <;> simp_all [Operation.writes])

/-- Settles O33: the reply is read off the status the Step leaves. -/
theorem stepReportsItsFault : Obligations.StepReportsItsFault := by
  intro s t _ h
  refine ⟨fun ht => ?_, fun c ht => ?_⟩
  · rw [operate_step_of_next h, stepReply_running s ht]
  · rw [operate_step_of_next h, stepReply_faulted s ht]

end Sys2Proof.Machine
end

section
/-! Reset and hazards (spec/70_reset_and_hazards.md): the values Reset leaves (R150), that nothing but Reset runs before the
first Reset (R151), and that a jump to itself ends a run (R158). -/

namespace Sys2Proof

/-- The word of R158: the type digit 1 set in an address of at most 12 bits is the encoding of the jump to it. -/
theorem selfJumpWord_eq_encode {a : Word} (ha : a.toNat < 0x1000) : 0x1000#16 ||| a = encode (.jp (fieldNnn a)) := by
  refine BitVec.eq_of_toNat_eq ?_
  calc (0x1000#16 ||| a).toNat
      = (0x1#4).toNat <<< 12 ||| (fieldNnn a).toNat := by
        rw [BitVec.toNat_or, fieldNnn_toNat, Nat.mod_eq_of_lt ha]; rfl
    _ = (wordA 0x1 (fieldNnn a)).toNat := (BitVec.toNat_append 0x1#4 (fieldNnn a)).symm

end Sys2Proof

namespace Sys2Proof.Machine

/-! ### A jump to itself -/

/-- The jump target kept in 12 bits is the address itself, when that has no more bits. -/
theorem addrOfImm_fieldNnn {a : Word} (ha : a.toNat < 0x1000) : addrOfImm (fieldNnn a) = a :=
  BitVec.eq_of_toNat_eq (by rw [addrOfImm_toNat, fieldNnn_toNat, Nat.mod_eq_of_lt ha])

theorem State.AtSelfJump.decode_eq {s : State} (h : s.AtSelfJump) : decode s.fetchWord = .jp (fieldNnn s.pc) := by
  obtain ⟨-, hpc, hword⟩ := h
  rw [hword, selfJumpWord_eq_encode hpc, decode_encode rfl]

/-- A jump back to where the advance came from undoes the advance. -/
theorem State.setPc_advance (s : State) : s.advance.setPc s.pc = s := rfl

/-! ### The values after Reset (10_state.md R23) -/

section
variable (f : Font)

@[simp] theorem State.getV_resetWith (r : RegIx) : (State.resetWith f).getV r = 0 := by
  simp [State.getV, State.resetWith]

theorem State.stack_resetWith (j : Fin 16) : (State.resetWith f).stack[j] = 0 := by
  simp [State.resetWith]

@[simp] theorem State.key_resetWith (k : KeyIx) : (State.resetWith f).key k = false := by
  simp [State.key, State.resetWith]

/-- The reset display is a cleared one. -/
@[simp] theorem State.pixel_resetWith (px py : Nat) : (State.resetWith f).pixel px py = false :=
  (State.resetWith f).pixel_clearPixels px py

/-- The font ends below 0x200, so none of its addresses is wrapped. -/
theorem State.readByte_resetWith_font {a : Nat} (ha : a < f.bytes.length) :
    (State.resetWith f).readByte a = f.bytes[a] := by
  have hfits : f.bytes.length ≤ 0x200 := f.fits
  have hcell : cellOf a = a := Nat.mod_eq_of_lt (show a < 4096 by omega)
  rw [State.readByte_resetWith, hcell, List.getD_eq_getElem _ 0 ha]

theorem State.readByte_resetWith_above {a : Nat} (hfont : f.bytes.length ≤ a) (ha : a < 4096) :
    (State.resetWith f).readByte a = 0 := by
  have hcell : cellOf a = a := Nat.mod_eq_of_lt ha
  rw [State.readByte_resetWith, hcell, List.getD_eq_default _ 0 hfont]

end

/-! ### Before the first Reset -/

theorem deviceOperate_none_of_ne_reset (f : Font) {o : Operation} (h : o ≠ .reset) :
    deviceOperate f none o = .refused .neverReset := by
  cases o with
  | reset => contradiction
  | loadRom | step | tickTimers | setKey | setPhysicalKey | readPixel | readPixelIndex => rfl

/-! ### The obligations -/

/-- Settles O59: the word decodes to the jump to `pc`, which undoes the advance. -/
theorem selfJumpIsTheEnd : Obligations.SelfJumpIsTheEnd := by
  intro s hself
  have hdec : decode s.fetchWord = .jp (fieldNnn s.pc) := hself.decode_eq
  obtain ⟨hrun, hpc, -⟩ := hself
  calc step s = exec (decode s.fetchWord) s.advance := step_running hrun
    _ = .next (s.advance.setPc (addrOfImm (fieldNnn s.pc))) := by rw [hdec]; rfl
    _ = .next s := by rw [addrOfImm_fieldNnn hpc, s.setPc_advance]

/-- Settles O39: Reset differs from `State.resetWith` of the font in the counter of draws only, which none of these values
depends on. -/
theorem resetValues : Obligations.ResetValues := fun s =>
  ⟨s.doReset, rfl, State.getV_resetWith s.font, rfl, rfl, rfl, State.stack_resetWith s.font, rfl, rfl,
    fun _ => State.readByte_resetWith_font s.font, fun _ => State.readByte_resetWith_above s.font,
    State.pixel_resetWith s.font, State.key_resetWith s.font, rfl, s.doReset_eq⟩

/-- Settles O44: every operation but Reset by `deviceOperate_none_of_ne_reset`; a core that has been reset is `operate`. -/
theorem nothingRunsBeforeReset : Obligations.NothingRunsBeforeReset :=
  ⟨rfl, fun f => ⟨fun _ => deviceOperate_none_of_ne_reset f, rfl, fun _ _ => rfl⟩⟩

end Sys2Proof.Machine
end

section
/-! Sample words of the decode table (spec/95_test_vectors.md §2.1). -/

namespace Sys2Proof

/-- Settles O7: seven of the words are the encodings of their instructions, so the round trip decodes them; the `n` of 512B is
ignored, so that word is not an encoding, and its type 5 decides. -/
theorem sampleWordsDecode : Obligations.SampleWordsDecode := by
  have hcanonical {i : Instr} {w : Word} (hw : encode i = w) (hi : i.wf = true) : decode w = i := hw ▸ decode_encode hi
  have hseReg : decode 0x512B = .seReg 1 2 := decode_of_type5 rfl
  exact ⟨hcanonical rfl rfl, hcanonical rfl rfl, hcanonical rfl rfl, hseReg, hcanonical rfl rfl, hcanonical rfl rfl,
    hcanonical rfl rfl, hcanonical rfl rfl⟩

end Sys2Proof
end
